-- ==== Sys2Proof/Word.lean ====
section
/-! DEFINITION. The words of the machine (00_scope.md R4, R5): every quantity is unsigned, bit 0 is the
least significant bit. -/

namespace Sys2Proof

/-- A memory byte, a general register, a timer: 8 bits. -/
abbrev Byte := BitVec 8

/-- An instruction word, `I`, `pc`, a stack entry, `fault_info`: 16 bits. -/
abbrev Word := BitVec 16

/-- A 4-bit field of the instruction word. -/
abbrev Nibble := BitVec 4

/-- The 12-bit address or immediate `NNN`. -/
abbrev Addr12 := BitVec 12

/-- The number of a general register, 0..15: R10, always in range. -/
abbrev Reg := Fin 16

/-- Register 15, `VF`: the flag register (10_state.md R11). -/
abbrev Reg.vf : Reg := 15

end Sys2Proof
end

