-- ==== Sys2Proof/Machine/Flags.lean ====
section
/-! DEFINITION. The values written to VF as a flag: the rows of 10_state.md R11, each computed from the operands
as they were before the Step (42_alu.md R101). -/

namespace Sys2Proof.Machine

/-- A flag as VF holds it: 1 or 0 (R11). -/
def flagByte (b : Bool) : Byte := if b then 1 else 0

/-- Carry of `ADD Vx,Vy`: the sum exceeds 255 (R96, R102). -/
def carryOf (a b : Byte) : Bool := decide (a.toNat + b.toNat > 255)

/-- No borrow of `a - b`: `a >= b` (R97, R99, R102). -/
def noBorrowOf (a b : Byte) : Bool := decide (a.toNat ≥ b.toNat)

/-- The bit a right shift by one moves out: bit 0 (R98). -/
def shiftedOutRight (a : Byte) : Bool := a.getLsbD 0

/-- The bit a left shift by one moves out: bit 7 (R100). -/
def shiftedOutLeft (a : Byte) : Bool := a.getLsbD 7

/-- Overflow of `ADD I,Vx`: the unbounded sum passes 0xFFF (R111). -/
def indexOverflow (t : Nat) : Bool := decide (t > 0xFFF)

end Sys2Proof.Machine
end

