-- ==== Sys2Proof/Config.lean ====
section
/-! DEFINITION. The numbers the source prints (00_scope.md R4), and the free values: what the environment
answers, which no rule fixes. A free value is an opaque constant applied to the count of answers taken so far
(log entries 4, 11, 12): nothing in Lean can evaluate it. -/

namespace Sys2Proof.Config

/-- `MEM_SIZE` (R4, R30): addresses 0..4095. -/
abbrev memSize : Nat := 4096

/-- `PROG_BASE` (R4, R39): the entry point and the address of a program's first byte. -/
abbrev progBase : Nat := 512

/-- `MAX_PROG` (R4, R161): the longest program `LoadProgram` accepts. -/
abbrev maxProg : Nat := 3584

/-- FREE VALUE: the answer of `rng.byte()` at the `n`-th draw (R138). -/
opaque randomByte : Nat → Byte

/-- FREE VALUE: bit `k` says whether hex key `k` is down at the `n`-th draw (R137). -/
opaque keysDown : Nat → BitVec 16

/-- FREE VALUE: the byte from which `kb.activeKey()`'s answer at the `n`-th draw is made (R137). -/
opaque activeByte : Nat → Byte

/-- FREE VALUE: the framebuffer's collision answer at the `n`-th draw, to a non-empty sprite `rows` drawn at
`x`, `y` (R136). -/
opaque collision : (n : Nat) → (rows : List Byte) → (x y : Byte) → Bool

end Sys2Proof.Config
end

