-- ==== Sys2Proof/Syntax.lean ====
section
/-! DEFINITION. The 34 instructions of spec/opcode_table.json, one constructor a row, in the order of
30_encoding.md R56. A constructor's arguments are the fields the table gives the row. -/

namespace Sys2Proof

/-- An instruction. `x`, `y` are register numbers, `nn`, `nnn`, `n` the immediates of R51. The low nibble
of `5XY_` and `9XY_` is no field (R58 a); `y` of the shifts is a field without use (R58 b). -/
inductive Instr where
  /-- `CLS` (R130). -/
  | cls
  /-- `RET` (R70). -/
  | ret
  /-- `JP nnn` (R71). -/
  | jp (nnn : Addr12)
  /-- `CALL nnn` (R72). -/
  | call (nnn : Addr12)
  /-- `SE Vx,nn` (R80). -/
  | seImm (x : Reg) (nn : Byte)
  /-- `SNE Vx,nn` (R81). -/
  | sneImm (x : Reg) (nn : Byte)
  /-- `SE Vx,Vy` (R82). -/
  | seReg (x y : Reg)
  /-- `LD Vx,nn` (R90). -/
  | ldImm (x : Reg) (nn : Byte)
  /-- `ADD Vx,nn` (R91). -/
  | addImm (x : Reg) (nn : Byte)
  /-- `LD Vx,Vy` (R92). -/
  | ldReg (x y : Reg)
  /-- `OR Vx,Vy` (R93). -/
  | or (x y : Reg)
  /-- `AND Vx,Vy` (R94). -/
  | and (x y : Reg)
  /-- `XOR Vx,Vy` (R95). -/
  | xor (x y : Reg)
  /-- `ADD Vx,Vy` (R96). -/
  | addReg (x y : Reg)
  /-- `SUB Vx,Vy` (R97). -/
  | sub (x y : Reg)
  /-- `SHR Vx` (R98); `y` is decoded and not used. -/
  | shr (x y : Reg)
  /-- `SUBN Vx,Vy` (R99). -/
  | subn (x y : Reg)
  /-- `SHL Vx` (R100); `y` is decoded and not used. -/
  | shl (x y : Reg)
  /-- `SNE Vx,Vy` (R83). -/
  | sneReg (x y : Reg)
  /-- `LD I,nnn` (R110). -/
  | ldI (nnn : Addr12)
  /-- `JP V0,nnn` (R73). -/
  | jpV0 (nnn : Addr12)
  /-- `RND Vx,nn` (R131). -/
  | rnd (x : Reg) (nn : Byte)
  /-- `DRW Vx,Vy,n` (R132). -/
  | drw (x y : Reg) (n : Nibble)
  /-- `SKP Vx` (R133). -/
  | skp (x : Reg)
  /-- `SKNP Vx` (R134). -/
  | sknp (x : Reg)
  /-- `LD Vx,DT` (R120). -/
  | ldFromDt (x : Reg)
  /-- `LD Vx,K` (R135). -/
  | ldKey (x : Reg)
  /-- `LD DT,Vx` (R121). -/
  | ldToDt (x : Reg)
  /-- `LD ST,Vx` (R122). -/
  | ldToSt (x : Reg)
  /-- `ADD I,Vx` (R111). -/
  | addI (x : Reg)
  /-- `LD F,Vx` (R112). -/
  | ldF (x : Reg)
  /-- `LD B,Vx` (R113). -/
  | ldB (x : Reg)
  /-- `LD [I],Vx` (R114): the register dump. -/
  | dump (x : Reg)
  /-- `LD Vx,[I]` (R115): the register load. -/
  | load (x : Reg)
  deriving DecidableEq, Repr

end Sys2Proof
end

