-- ==== Sys2Proof/WellFormed.lean ====
section
/-! DEFINITION. The checks of well-formedness: an instruction's fields fit their widths (30_encoding.md R51; the
operand types already say so, log entry 16), and a program image fits the memory above 512
(70_reset_and_hazards.md R161, R162). -/

namespace Sys2Proof

/-- R10: a register number is 0..15. -/
def regFits (x : Nat) : Bool := x < 16

/-- R51: an immediate of `width` bits does not overflow its field. -/
def fieldFits (width value : Nat) : Bool := value < 2 ^ width

/-- R51 "no field value may overflow its declared bit width", for every field of an instruction. -/
def Instr.wellFormed : Instr → Bool
  | .cls => true
  | .ret => true
  | .jp nnn => fieldFits 12 nnn.toNat
  | .call nnn => fieldFits 12 nnn.toNat
  | .seImm x nn => regFits x && fieldFits 8 nn.toNat
  | .sneImm x nn => regFits x && fieldFits 8 nn.toNat
  | .seReg x y => regFits x && regFits y
  | .ldImm x nn => regFits x && fieldFits 8 nn.toNat
  | .addImm x nn => regFits x && fieldFits 8 nn.toNat
  | .ldReg x y => regFits x && regFits y
  | .or x y => regFits x && regFits y
  | .and x y => regFits x && regFits y
  | .xor x y => regFits x && regFits y
  | .addReg x y => regFits x && regFits y
  | .sub x y => regFits x && regFits y
  | .shr x y => regFits x && regFits y
  | .subn x y => regFits x && regFits y
  | .shl x y => regFits x && regFits y
  | .sneReg x y => regFits x && regFits y
  | .ldI nnn => fieldFits 12 nnn.toNat
  | .jpV0 nnn => fieldFits 12 nnn.toNat
  | .rnd x nn => regFits x && fieldFits 8 nn.toNat
  | .drw x y n => regFits x && regFits y && fieldFits 4 n.toNat
  | .skp x => regFits x
  | .sknp x => regFits x
  | .ldFromDt x => regFits x
  | .ldKey x => regFits x
  | .ldToDt x => regFits x
  | .ldToSt x => regFits x
  | .addI x => regFits x
  | .ldF x => regFits x
  | .ldB x => regFits x
  | .dump x => regFits x
  | .load x => regFits x

/-- R161, R162: the program images `LoadProgram` accepts. -/
def imageFits (image : List Byte) : Bool := image.length ≤ Config.maxProg

end Sys2Proof
end

