-- ==== Sys2Proof/Decode.lean ====
section
/-! DEFINITION. The decoder (30_encoding.md R50 to R61), after it the encoder, and the table of R56's mask and
match columns beside them. The decoder follows the `pattern` column, nibble by nibble. -/

namespace Sys2Proof

/-- `G`, bits 15:12 (R51). -/
def fieldG (w : Word) : Nibble := w.extractLsb' 12 4

/-- `X`, bits 11:8 (R51), as a register number. -/
def fieldX (w : Word) : Reg := (w.extractLsb' 8 4).toFin

/-- `Y`, bits 7:4 (R51), as a register number. -/
def fieldY (w : Word) : Reg := (w.extractLsb' 4 4).toFin

/-- `N`, bits 3:0 (R51). -/
def fieldN (w : Word) : Nibble := w.extractLsb' 0 4

/-- `NN`, bits 7:0 (R51). -/
def fieldNN (w : Word) : Byte := w.extractLsb' 0 8

/-- `NNN`, bits 11:0 (R51). -/
def fieldNNN (w : Word) : Addr12 := w.extractLsb' 0 12

/-- Why bytes are no instruction. -/
inductive DecodeError where
  /-- The word matches no row of the table (R57): the cycle runs the no-op of R74. -/
  | unrecognised (op : Word)
  /-- Fewer than two bytes: no word can be formed (R50). Cannot arise in a fetch, which reads two. -/
  | truncated
  deriving DecidableEq, Repr

/-- Group 0: only the two exact words (R56 rows 1, 2). -/
def decodeGroup0 (w : Word) : Except DecodeError Instr :=
  match fieldNNN w with
  | 0x0E0#12 => .ok .cls
  | 0x0EE#12 => .ok .ret
  | _ => .error (.unrecognised w)

/-- Group 8: the low nibble selects the function (R56 rows 10 to 18). -/
def decodeGroup8 (w : Word) : Except DecodeError Instr :=
  match fieldN w with
  | 0x0#4 => .ok (.ldReg (fieldX w) (fieldY w))
  | 0x1#4 => .ok (.or (fieldX w) (fieldY w))
  | 0x2#4 => .ok (.and (fieldX w) (fieldY w))
  | 0x3#4 => .ok (.xor (fieldX w) (fieldY w))
  | 0x4#4 => .ok (.addReg (fieldX w) (fieldY w))
  | 0x5#4 => .ok (.sub (fieldX w) (fieldY w))
  | 0x6#4 => .ok (.shr (fieldX w) (fieldY w))
  | 0x7#4 => .ok (.subn (fieldX w) (fieldY w))
  | 0xE#4 => .ok (.shl (fieldX w) (fieldY w))
  | _ => .error (.unrecognised w)

/-- Group E: the low byte selects the key test (R56 rows 24, 25). -/
def decodeGroupE (w : Word) : Except DecodeError Instr :=
  match fieldNN w with
  | 0x9E#8 => .ok (.skp (fieldX w))
  | 0xA1#8 => .ok (.sknp (fieldX w))
  | _ => .error (.unrecognised w)

/-- Group F: the low byte selects the function (R56 rows 26 to 34). -/
def decodeGroupF (w : Word) : Except DecodeError Instr :=
  match fieldNN w with
  | 0x07#8 => .ok (.ldFromDt (fieldX w))
  | 0x0A#8 => .ok (.ldKey (fieldX w))
  | 0x15#8 => .ok (.ldToDt (fieldX w))
  | 0x18#8 => .ok (.ldToSt (fieldX w))
  | 0x1E#8 => .ok (.addI (fieldX w))
  | 0x29#8 => .ok (.ldF (fieldX w))
  | 0x33#8 => .ok (.ldB (fieldX w))
  | 0x55#8 => .ok (.dump (fieldX w))
  | 0x65#8 => .ok (.load (fieldX w))
  | _ => .error (.unrecognised w)

/-- `Decode(op)` (R55): total on words. The bit patterns are the spec's D1 (log entry 3). -/
def decodeWord (w : Word) : Except DecodeError Instr :=
  match fieldG w with
  | 0x0#4 => decodeGroup0 w
  | 0x1#4 => .ok (.jp (fieldNNN w))
  | 0x2#4 => .ok (.call (fieldNNN w))
  | 0x3#4 => .ok (.seImm (fieldX w) (fieldNN w))
  | 0x4#4 => .ok (.sneImm (fieldX w) (fieldNN w))
  | 0x5#4 => .ok (.seReg (fieldX w) (fieldY w))
  | 0x6#4 => .ok (.ldImm (fieldX w) (fieldNN w))
  | 0x7#4 => .ok (.addImm (fieldX w) (fieldNN w))
  | 0x8#4 => decodeGroup8 w
  | 0x9#4 => .ok (.sneReg (fieldX w) (fieldY w))
  | 0xA#4 => .ok (.ldI (fieldNNN w))
  | 0xB#4 => .ok (.jpV0 (fieldNNN w))
  | 0xC#4 => .ok (.rnd (fieldX w) (fieldNN w))
  | 0xD#4 => .ok (.drw (fieldX w) (fieldY w) (fieldN w))
  | 0xE#4 => decodeGroupE w
  | 0xF#4 => decodeGroupF w
  | _ => .error (.unrecognised w)

/-- The word of two bytes, the one at the lower address first: `high << 8 | low` (20_memory.md R33). -/
def wordOfBytes (high low : Byte) : Word := high ++ low

/-- The bits 15:8 of a word: the byte that stands at the lower address (R33). -/
def highByte (w : Word) : Byte := w.extractLsb' 8 8

/-- The bits 7:0 of a word: the byte that stands at the higher address (R33). -/
def lowByte (w : Word) : Byte := w.extractLsb' 0 8

/-- Decoding of any list of bytes: an instruction with the bytes after it, or an error by name. Every
instruction has two bytes (R50, R61). -/
def decodeBytes : List Byte → Except DecodeError (Instr × List Byte)
  | high :: low :: rest =>
    match decodeWord (wordOfBytes high low) with
    | .ok i => .ok (i, rest)
    | .error e => .error e
  | _ => .error .truncated

/-- The instruction the decoder reads from the `nbits` bits of `w` (bit 0 the least significant bit of the
one word; every bit above `nbits` is 0), laid out as memory holds it, the high byte first. -/
def decodeTableWord (nbits w : Nat) : Option Instr :=
  let word : Word := BitVec.ofNat 16 (w % 2 ^ nbits)
  match decodeBytes [highByte word, lowByte word] with
  | .ok (i, _) => some i
  | .error _ => none

/-! ## The encoder -/

/-- Format `A`: `GNNN` (R53). -/
def formA (g : Nibble) (nnn : Addr12) : Word := g ++ nnn

/-- Format `RI`, and `RF` with `nn` the function byte: `GXNN` (R53). -/
def formRI (g : Nibble) (x : Reg) (nn : Byte) : Word := (g ++ BitVec.ofFin (w := 4) x) ++ nn

/-- Formats `RR` and `RRN`: `GXYN` (R53). -/
def formRRN (g : Nibble) (x y : Reg) (n : Nibble) : Word :=
  ((g ++ BitVec.ofFin (w := 4) x) ++ BitVec.ofFin (w := 4) y) ++ n

/-- The word of an instruction: the pattern column of R56, with `N = 0` in the ignored low nibble of `5XY_` and
`9XY_` (R58, R60). -/
def encode : Instr → Word
  | .cls => formA 0x0#4 0x0E0#12
  | .ret => formA 0x0#4 0x0EE#12
  | .jp nnn => formA 0x1#4 nnn
  | .call nnn => formA 0x2#4 nnn
  | .seImm x nn => formRI 0x3#4 x nn
  | .sneImm x nn => formRI 0x4#4 x nn
  | .seReg x y => formRRN 0x5#4 x y 0x0#4
  | .ldImm x nn => formRI 0x6#4 x nn
  | .addImm x nn => formRI 0x7#4 x nn
  | .ldReg x y => formRRN 0x8#4 x y 0x0#4
  | .or x y => formRRN 0x8#4 x y 0x1#4
  | .and x y => formRRN 0x8#4 x y 0x2#4
  | .xor x y => formRRN 0x8#4 x y 0x3#4
  | .addReg x y => formRRN 0x8#4 x y 0x4#4
  | .sub x y => formRRN 0x8#4 x y 0x5#4
  | .shr x y => formRRN 0x8#4 x y 0x6#4
  | .subn x y => formRRN 0x8#4 x y 0x7#4
  | .shl x y => formRRN 0x8#4 x y 0xE#4
  | .sneReg x y => formRRN 0x9#4 x y 0x0#4
  | .ldI nnn => formA 0xA#4 nnn
  | .jpV0 nnn => formA 0xB#4 nnn
  | .rnd x nn => formRI 0xC#4 x nn
  | .drw x y n => formRRN 0xD#4 x y n
  | .skp x => formRI 0xE#4 x 0x9E#8
  | .sknp x => formRI 0xE#4 x 0xA1#8
  | .ldFromDt x => formRI 0xF#4 x 0x07#8
  | .ldKey x => formRI 0xF#4 x 0x0A#8
  | .ldToDt x => formRI 0xF#4 x 0x15#8
  | .ldToSt x => formRI 0xF#4 x 0x18#8
  | .addI x => formRI 0xF#4 x 0x1E#8
  | .ldF x => formRI 0xF#4 x 0x29#8
  | .ldB x => formRI 0xF#4 x 0x33#8
  | .dump x => formRI 0xF#4 x 0x55#8
  | .load x => formRI 0xF#4 x 0x65#8

/-- The two bytes of an instruction as memory holds them, the high byte at the lower address (R33). -/
def encodeBytes (i : Instr) : List Byte := [highByte (encode i), lowByte (encode i)]

/-- The word an assembler emits for the same instruction: the ignored low nibble of groups 5 and 9 cleared
(R58 a), every other word as it is. -/
def canonicalWord (w : Word) : Word :=
  if fieldG w = 0x5#4 ∨ fieldG w = 0x9#4 then w &&& 0xFFF0#16 else w

/-! ## The match and mask columns of R56 -/

/-- A row of the opcode map: a word `op` selects it when `op & mask = value` (R55). -/
structure OpcodeRow where
  /-- The row's mnemonic in spec/opcode_table.json. -/
  mnemonic : String
  /-- The `match` column. -/
  value : Word
  /-- The `mask` column. -/
  mask : Word
  /-- The instruction of a word that selects the row: which fields are its operands. -/
  instr : Word → Instr

/-- `op & mask = match` (R55). -/
def OpcodeRow.selects (r : OpcodeRow) (w : Word) : Bool := w &&& r.mask == r.value

/-- Rows 1 to 9 of R56. -/
def opcodeRowsA : List OpcodeRow := [
  ⟨"CLS", 0x00E0#16, 0xFFFF#16, fun _ => .cls⟩,
  ⟨"RET", 0x00EE#16, 0xFFFF#16, fun _ => .ret⟩,
  ⟨"JP_nnn", 0x1000#16, 0xF000#16, fun w => .jp (fieldNNN w)⟩,
  ⟨"CALL_nnn", 0x2000#16, 0xF000#16, fun w => .call (fieldNNN w)⟩,
  ⟨"SE_Vx_nn", 0x3000#16, 0xF000#16, fun w => .seImm (fieldX w) (fieldNN w)⟩,
  ⟨"SNE_Vx_nn", 0x4000#16, 0xF000#16, fun w => .sneImm (fieldX w) (fieldNN w)⟩,
  ⟨"SE_Vx_Vy", 0x5000#16, 0xF000#16, fun w => .seReg (fieldX w) (fieldY w)⟩,
  ⟨"LD_Vx_nn", 0x6000#16, 0xF000#16, fun w => .ldImm (fieldX w) (fieldNN w)⟩,
  ⟨"ADD_Vx_nn", 0x7000#16, 0xF000#16, fun w => .addImm (fieldX w) (fieldNN w)⟩]

/-- Rows 10 to 18 of R56. -/
def opcodeRowsB : List OpcodeRow := [
  ⟨"LD_Vx_Vy", 0x8000#16, 0xF00F#16, fun w => .ldReg (fieldX w) (fieldY w)⟩,
  ⟨"OR_Vx_Vy", 0x8001#16, 0xF00F#16, fun w => .or (fieldX w) (fieldY w)⟩,
  ⟨"AND_Vx_Vy", 0x8002#16, 0xF00F#16, fun w => .and (fieldX w) (fieldY w)⟩,
  ⟨"XOR_Vx_Vy", 0x8003#16, 0xF00F#16, fun w => .xor (fieldX w) (fieldY w)⟩,
  ⟨"ADD_Vx_Vy", 0x8004#16, 0xF00F#16, fun w => .addReg (fieldX w) (fieldY w)⟩,
  ⟨"SUB_Vx_Vy", 0x8005#16, 0xF00F#16, fun w => .sub (fieldX w) (fieldY w)⟩,
  ⟨"SHR_Vx", 0x8006#16, 0xF00F#16, fun w => .shr (fieldX w) (fieldY w)⟩,
  ⟨"SUBN_Vx_Vy", 0x8007#16, 0xF00F#16, fun w => .subn (fieldX w) (fieldY w)⟩,
  ⟨"SHL_Vx", 0x800E#16, 0xF00F#16, fun w => .shl (fieldX w) (fieldY w)⟩]

/-- Rows 19 to 25 of R56. -/
def opcodeRowsC : List OpcodeRow := [
  ⟨"SNE_Vx_Vy", 0x9000#16, 0xF000#16, fun w => .sneReg (fieldX w) (fieldY w)⟩,
  ⟨"LD_I_nnn", 0xA000#16, 0xF000#16, fun w => .ldI (fieldNNN w)⟩,
  ⟨"JP_V0_nnn", 0xB000#16, 0xF000#16, fun w => .jpV0 (fieldNNN w)⟩,
  ⟨"RND_Vx_nn", 0xC000#16, 0xF000#16, fun w => .rnd (fieldX w) (fieldNN w)⟩,
  ⟨"DRW_Vx_Vy_n", 0xD000#16, 0xF000#16, fun w => .drw (fieldX w) (fieldY w) (fieldN w)⟩,
  ⟨"SKP_Vx", 0xE09E#16, 0xF0FF#16, fun w => .skp (fieldX w)⟩,
  ⟨"SKNP_Vx", 0xE0A1#16, 0xF0FF#16, fun w => .sknp (fieldX w)⟩]

/-- Rows 26 to 34 of R56. -/
def opcodeRowsD : List OpcodeRow := [
  ⟨"LD_Vx_DT", 0xF007#16, 0xF0FF#16, fun w => .ldFromDt (fieldX w)⟩,
  ⟨"LD_Vx_K", 0xF00A#16, 0xF0FF#16, fun w => .ldKey (fieldX w)⟩,
  ⟨"LD_DT_Vx", 0xF015#16, 0xF0FF#16, fun w => .ldToDt (fieldX w)⟩,
  ⟨"LD_ST_Vx", 0xF018#16, 0xF0FF#16, fun w => .ldToSt (fieldX w)⟩,
  ⟨"ADD_I_Vx", 0xF01E#16, 0xF0FF#16, fun w => .addI (fieldX w)⟩,
  ⟨"LD_F_Vx", 0xF029#16, 0xF0FF#16, fun w => .ldF (fieldX w)⟩,
  ⟨"LD_B_Vx", 0xF033#16, 0xF0FF#16, fun w => .ldB (fieldX w)⟩,
  ⟨"LD__I__Vx", 0xF055#16, 0xF0FF#16, fun w => .dump (fieldX w)⟩,
  ⟨"LD_Vx__I", 0xF065#16, 0xF0FF#16, fun w => .load (fieldX w)⟩]

/-- The 34 rows of R56. -/
def opcodeTable : List OpcodeRow := opcodeRowsA ++ opcodeRowsB ++ opcodeRowsC ++ opcodeRowsD

/-- `Decode(op)` as R55 words it: the instruction of the row the word selects, if any. -/
def decodeByTable (w : Word) : Option Instr :=
  (opcodeTable.find? (fun r => r.selects w)).map (fun r => r.instr w)

end Sys2Proof
end

