-- ==== Sys2Proof/Machine/State.lean ====
section
/-! DEFINITION. The state of the CORE (10_state.md R10 to R21) as plain data, the events that change it
(00_scope.md R7), the transactions it issues (R6), the causes of a fault (60_exceptions.md R141), and the state
after reset (R24, R160). -/

namespace Sys2Proof.Machine

/-- The five causes of R141. The spec makes a fault a STATE (R143: `status`, `fault_cause`, `fault_info`), so
these name the content of `faultCause`; no meaning and no step ends in the interface's outcome `fault`
(log entry 7). Each is safe: the machine stops changing until the host resets or loads it. -/
inductive Fault where
  /-- Code 1: raised by every `Step` whose `pc` is above 4094. Safe. -/
  | fetchRange
  /-- Code 2: raised by `DRW` (with rows), `LD B,Vx`, `LD [I],Vx`, `LD Vx,[I]` when the highest address is above
  4095. Safe. -/
  | memRange
  /-- Code 3: raised by `RET` on an empty stack. Safe. -/
  | stackUnderflow
  /-- Code 4: raised by `CALL nnn` on a full stack. Safe. -/
  | stackOverflow
  /-- Code 5: raised by `SKP Vx` and `SKNP Vx` when `x[X]` is above 15. Safe. -/
  | keyRange
  deriving DecidableEq, Repr

/-- Why the model gives no meaning. -/
inductive Refusal where
  /-- An instruction not modelled yet, by its mnemonic: raised by no arm of exec now. Safe. -/
  | notModelled (mnemonic : String)
  deriving DecidableEq, Repr

/-- `status` (R20). -/
inductive Status where
  | running
  | faulted
  deriving DecidableEq, Repr

/-- What the CORE issues to the outside: a collaborator transaction with the answer it took (R136 to R138), or a
report (R146, R147). -/
inductive Transaction where
  /-- `fb.clear()` (R136). -/
  | fbClear
  /-- `fb.drawSprite(rows, x, y)` and the collision bit it answered (R136). -/
  | fbDrawSprite (rows : List Byte) (x y : Byte) (collision : Bool)
  /-- `kb.isKeyDown(key)` and its answer (R137). -/
  | kbIsKeyDown (key : Nibble) (down : Bool)
  /-- `kb.activeKey()` and its answer (R137). -/
  | kbActiveKey (answer : Byte)
  /-- `rng.byte()` and its answer (R138). -/
  | rngByte (answer : Byte)
  /-- `report_unrecognised(op, a)` (R146). -/
  | reportUnrecognised (op : Word) (address : Word)
  /-- `report_load_error(len(b), 3584)` (R147). -/
  | reportLoadError (length limit : Nat)
  deriving DecidableEq, Repr

/-- The five events of R7. -/
inductive Event where
  /-- One instruction (R26). -/
  | step
  /-- One 60 Hz timer period (R149). -/
  | tick
  /-- R163. -/
  | reset
  /-- R160. -/
  | powerOn
  /-- R161, R162. -/
  | loadProgram (image : List Byte)
  deriving DecidableEq, Repr

/-- Memory: the cells that differ from what an unlisted address reads as, addresses rising (log entry 9). -/
abbrev Memory := List Host.Cell

/-- The machine. The first eleven fields are all the state the spec gives the CORE (R21); the last three are the
model's own and carry its inputs and outputs (log entries 4, 5, 6). -/
structure State where
  /-- V0..VF (R10, R11). -/
  v : Vector Byte 16
  /-- The index register (R12). -/
  I : Word
  /-- The program counter (R13). -/
  pc : Word
  /-- The call stack, newest entry last (R16). -/
  stack : List Word
  /-- `delay_timer` (R17). -/
  dt : Byte
  /-- `sound_timer` (R18). -/
  st : Byte
  /-- The 4096 bytes of memory (R19, R30). -/
  memory : Memory
  /-- `status` (R20). -/
  status : Status
  /-- `fault_cause` (R20, R141). -/
  faultCause : BitVec 3
  /-- `fault_info` (R20, R141). -/
  faultInfo : Word
  /-- Model's own: how many collaborator answers were taken so far. -/
  draws : Nat
  /-- Model's own: every transaction and report issued so far, oldest first. -/
  outputs : List Transaction
  /-- Model's own: the events the host has chosen for the next steps, next first. -/
  schedule : List Event
  deriving DecidableEq, Repr

/-- The machine right after `PowerOn` (R24, R160). Nothing is listed in memory: an unlisted address reads as its
power-on content. -/
def State.reset : State where
  v := Vector.replicate 16 0
  I := 0
  pc := 512
  stack := []
  dt := 0
  st := 0
  memory := []
  status := .running
  faultCause := 0
  faultInfo := 0
  draws := 0
  outputs := []
  schedule := []

end Sys2Proof.Machine
end

