-- ==== Sys2Proof/Machine/Ops.lean ====
section
/-! DEFINITION. The named operations every meaning is made of: memory, instruction fetch, the program counter,
the stack, fault entry, transactions. -/

namespace Sys2Proof.Machine

/-- The outcome of a meaning or a step. -/
abbrev Out := Host.Outcome State Fault Refusal

/-! ## Memory (20_memory.md) -/

/-- What an address not listed reads as: its content after `PowerOn` (R32, R160), the font at 0..79 and zero
from 80 on (log entry 9). -/
def unlisted (a : Nat) : Byte := fontset.getD a 0

/-- The byte at an address: `MemRead(a, 1)` once the address unit has checked `a` (R36). -/
def Memory.read : Memory → Nat → Byte
  | [], a => unlisted a
  | (k, b) :: m, a => if k = a then b else Memory.read m a

/-- Store a byte: `MemWrite(a, 1, b)` once the address unit has checked `a` (R36). Keeps the canonical form:
storing what an unlisted address reads as removes the cell. -/
def Memory.write : Memory → Nat → Byte → Memory
  | [], a, b => if b = unlisted a then [] else [(a, b)]
  | (k, c) :: m, a, b =>
    if a < k then (if b = unlisted a then (k, c) :: m else (a, b) :: (k, c) :: m)
    else if a = k then (if b = unlisted a then m else (a, b) :: m)
    else (k, c) :: Memory.write m a b

/-- `count` bytes from address `a` up, the one at `a` first (R34, R45). -/
def Memory.readBytes (m : Memory) (a : Nat) : Nat → List Byte
  | 0 => []
  | count + 1 => m.read a :: Memory.readBytes m (a + 1) count

/-- Store a list of bytes from address `a` up, the first at `a` (R34, R45). -/
def Memory.writeBytes (m : Memory) (a : Nat) : List Byte → Memory
  | [] => m
  | b :: bs => Memory.writeBytes (m.write a b) (a + 1) bs

/-- The canonical form from address `lo` up: addresses at least `lo`, strictly rising and inside the address
space, and no cell equal to what its address reads as when unlisted. -/
def Memory.wfFrom (lo : Nat) : Memory → Bool
  | [] => true
  | (k, b) :: m => decide (lo ≤ k) && decide (k < Config.memSize) && decide (b ≠ unlisted k) && Memory.wfFrom (k + 1) m

/-- Memory is in its canonical form. -/
def Memory.wf (m : Memory) : Bool := m.wfFrom 0

/-! ## Fault entry and leaving a fault (60_exceptions.md) -/

/-- The code of a cause in `fault_cause` (R141). -/
def Fault.code : Fault → BitVec 3
  | .fetchRange => 1
  | .memRange => 2
  | .stackUnderflow => 3
  | .stackOverflow => 4
  | .keyRange => 5

/-- `raise C(info)` (R143), applied to the state BEFORE the Step, so that nothing the Step wrote is kept: `pc` is
the address of the instruction, and only the status registers change. The one shared operation of taking a fault. -/
def raise (c : Fault) (info : Word) (s : State) : Out :=
  .next { s with status := .faulted, faultCause := c.code, faultInfo := info }

/-- Leaving the faulted state, which only `PowerOn`, `Reset` and an accepted `LoadProgram` do (R144): there is no
return instruction. -/
def clearFault (s : State) : State :=
  { s with status := .running, faultCause := 0, faultInfo := 0 }

/-! ## Fetch and the program counter (10_state.md R13, R14, R26) -/

/-- `Fetch(pc)` (20_memory.md R33): two bytes, the one at `pc` the high one; none when `pc` is above 4094. -/
def State.fetch (s : State) : Option Word :=
  if s.pc.toNat > 4094 then none
  else some (wordOfBytes (s.memory.read s.pc.toNat) (s.memory.read (s.pc.toNat + 1)))

/-- `pc <- (a + 2) mod 65536` before the instruction executes (R14, R26). -/
def State.advance (s : State) : State := { s with pc := s.pc + 2 }

/-- `pc <- v`. -/
def State.jump (target : Word) (s : State) : State := { s with pc := target }

/-- A skip: `pc <- (pc + 2) mod 65536` when the condition holds (41_skip.md). -/
def State.skipIf (c : Bool) (s : State) : State := if c then { s with pc := s.pc + 2 } else s

/-! ## The call stack (10_state.md R16) -/

/-- The stack holds `STACK_DEPTH` entries: a push would overflow (R16). -/
def State.stackFull (s : State) : Bool := decide (stackDepth ≤ s.stack.length)

/-- `push(v)` on a stack that is not full: append (R16). -/
def State.push (a : Word) (s : State) : State := { s with stack := s.stack ++ [a] }

/-- The stack without its newest entry, as `pop()` leaves it (R16). -/
def State.popped (s : State) : State := { s with stack := s.stack.dropLast }

/-! ## The address unit (20_memory.md R36, R37) -/

/-- The highest address of `count` bytes at `I`, `I + count - 1`, is at most 4095 (R37); zero bytes are always
in range. -/
def State.inRange (count : Nat) (s : State) : Bool := decide (count = 0 ∨ s.I.toNat + count - 1 ≤ 4095)

/-- The lowest address above 4095 that an access from `I` up would touch: `max(I, 4096)` (R141). -/
def State.rangeInfo (s : State) : Word := BitVec.ofNat 16 (max s.I.toNat 4096)

/-! ## Transactions (00_scope.md R6; 45_collaborators.md) -/

/-- Issue a transaction or a report: it is added to the record of what the CORE issued. -/
def State.issue (t : Transaction) (s : State) : State := { s with outputs := s.outputs ++ [t] }

/-- A collaborator's answer has been taken: the next one is a fresh free value (log entry 4). -/
def State.drawn (s : State) : State := { s with draws := s.draws + 1 }

/-- What `kb.activeKey()` may answer: a hex digit when a key is down, any byte when none is (R137). -/
def limitActive (keys : BitVec 16) (b : Byte) : Byte := if keys = 0 then b else b &&& 0x0F

/-- The answer of `kb.activeKey()` (R137); it is not tied to which key is down. -/
def activeAnswer (draw : Nat) : Byte := limitActive (Config.keysDown draw) (Config.activeByte draw)

/-- The collision bit as the CORE takes it: `false` for a sprite without rows, else the framebuffer's answer
(R136). -/
def limitCollision (rows : List Byte) (answer : Bool) : Bool := !rows.isEmpty && answer

end Sys2Proof.Machine
end

