-- ==== Sys2Proof/Machine/Operands.lean ====
section
/-! DEFINITION. The operand forms: general registers read and written, the result with its flag, widened
immediates, the index and glyph computations, decimal digits, the block of registers V0..VX. -/

namespace Sys2Proof.Machine

/-- `x[r]` (R6, R10). -/
def State.reg (s : State) (r : Reg) : Byte := s.v[r.val]

/-- `x[r] <- b` (R6, R10). -/
def State.setReg (r : Reg) (b : Byte) (s : State) : State := { s with v := s.v.set r.val b r.isLt }

/-- The result to `x[r]` and then the flag to VF, in this order (R101): with `r = 15` VF ends as the flag. -/
def State.setRegFlag (r : Reg) (b : Byte) (flag : Bool) (s : State) : State :=
  (s.setReg r b).setReg Reg.vf (flagByte flag)

/-- `I <- v` (R12). -/
def State.setI (v : Word) (s : State) : State := { s with I := v }

/-- `NNN` as a 16-bit value, zero-extended (R54). -/
def addrWord (nnn : Addr12) : Word := nnn.setWidth 16

/-- `pc` of `JP V0,nnn`: `(x[0] + NNN) mod 65536` (R73). -/
def offsetTarget (offset : Byte) (nnn : Addr12) : Word := BitVec.ofNat 16 (offset.toNat + nnn.toNat)

/-- `I + x[X]`, unbounded (R111). -/
def indexSum (index : Word) (b : Byte) : Nat := index.toNat + b.toNat

/-- `I` after `ADD I,Vx`: the sum, modulo 4096 when it passes 0xFFF (R111). -/
def indexAfter (t : Nat) : Word := BitVec.ofNat 16 (if indexOverflow t then t % 4096 else t)

/-- The address of a digit's glyph, `x[X] * 5`, not masked (20_memory.md R38, R112). -/
def glyphAddress (d : Byte) : Word := BitVec.ofNat 16 (d.toNat * 5)

/-- Hundreds, tens and ones of a byte (R113). -/
def decimalDigits (b : Byte) : List Byte :=
  [BitVec.ofNat 8 (b.toNat / 100), BitVec.ofNat 8 (b.toNat / 10 % 10), BitVec.ofNat 8 (b.toNat % 10)]

/-- The values of V0..VX, V0 first (R114). -/
def State.regsUpTo (s : State) (x : Reg) : List Byte := s.v.toList.take (x.val + 1)

/-- V0..VX loaded from memory at `I`, V0 from the lowest address; the registers above X as they are (R115). -/
def State.loadRegs (x : Reg) (s : State) : State :=
  { s with v := Vector.ofFn fun r : Fin 16 => if r ≤ x then s.memory.read (s.I.toNat + r.val) else s.v[r.val] }

end Sys2Proof.Machine
end

