-- ==== Sys2Proof/Machine/Alu.lean ====
section
/-! DEFINITION. Register loads, arithmetic, logic and shifts (42_alu.md). Operands are read before anything is
written; the flag is written last (R101). -/

namespace Sys2Proof.Machine

/-- `LD Vx,nn` (R90). -/
def execLdImm (x : Reg) (nn : Byte) (s : State) : Out := .next (s.advance.setReg x nn)

/-- `ADD Vx,nn` (R91): modulo 256, no flag. -/
def execAddImm (x : Reg) (nn : Byte) (s : State) : Out := .next (s.advance.setReg x (s.reg x + nn))

/-- `LD Vx,Vy` (R92). -/
def execLdReg (x y : Reg) (s : State) : Out := .next (s.advance.setReg x (s.reg y))

/-- `OR Vx,Vy` (R93): VF ends 0. -/
def execOr (x y : Reg) (s : State) : Out :=
  .next (s.advance.setRegFlag x (s.reg x ||| s.reg y) false)

/-- `AND Vx,Vy` (R94): VF ends 0. -/
def execAnd (x y : Reg) (s : State) : Out :=
  .next (s.advance.setRegFlag x (s.reg x &&& s.reg y) false)

/-- `XOR Vx,Vy` (R95): VF ends 0. -/
def execXor (x y : Reg) (s : State) : Out :=
  .next (s.advance.setRegFlag x (s.reg x ^^^ s.reg y) false)

/-- `ADD Vx,Vy` (R96): VF is the carry. -/
def execAddReg (x y : Reg) (s : State) : Out :=
  .next (s.advance.setRegFlag x (s.reg x + s.reg y) (carryOf (s.reg x) (s.reg y)))

/-- `SUB Vx,Vy` (R97): VF is "no borrow". -/
def execSub (x y : Reg) (s : State) : Out :=
  .next (s.advance.setRegFlag x (s.reg x - s.reg y) (noBorrowOf (s.reg x) (s.reg y)))

/-- `SHR Vx` (R98): `x[X]` in place, the field `y` without use (R58 b). -/
def execShr (x _y : Reg) (s : State) : Out :=
  .next (s.advance.setRegFlag x (s.reg x >>> 1) (shiftedOutRight (s.reg x)))

/-- `SUBN Vx,Vy` (R99): `x[Y] - x[X]`, VF is "no borrow". -/
def execSubn (x y : Reg) (s : State) : Out :=
  .next (s.advance.setRegFlag x (s.reg y - s.reg x) (noBorrowOf (s.reg y) (s.reg x)))

/-- `SHL Vx` (R100): `x[X]` in place, the field `y` without use (R58 b). -/
def execShl (x _y : Reg) (s : State) : Out :=
  .next (s.advance.setRegFlag x (s.reg x <<< 1) (shiftedOutLeft (s.reg x)))

end Sys2Proof.Machine
end

