-- ==== Sys2Proof/Machine/Collaborator.lean ====
section
/-! DEFINITION. The instructions that make one transaction with a collaborator (45_collaborators.md). Each
meaning takes the free value at the present draw and hands it to a function of that answer, so that the rest of
the effect is defined for every answer. -/

namespace Sys2Proof.Machine

/-- `CLS` (R130): one `fb.clear()`, no state of the CORE but `pc`. -/
def execCls (s : State) : Out := .next (s.advance.issue .fbClear)

/-- `RND Vx,nn` with the answer `r` of `rng.byte()`. -/
def rndWith (r : Byte) (x : Reg) (nn : Byte) (s : State) : Out :=
  .next ((s.advance.issue (.rngByte r)).drawn.setReg x (r &&& nn))

/-- `RND Vx,nn` (R131). -/
def execRnd (x : Reg) (nn : Byte) (s : State) : Out := rndWith (Config.randomByte s.draws) x nn s

/-- The sprite rows of a draw: `n` bytes from `I` up (R132). -/
def State.spriteRows (n : Nibble) (s : State) : List Byte := s.memory.readBytes s.I.toNat n.toNat

/-- `DRW Vx,Vy,n` with the framebuffer's answer: the coordinates are the registers before VF is written, and are
passed unreduced (R132, R136). -/
def drwWith (answer : Bool) (x y : Reg) (n : Nibble) (s : State) : Out :=
  if s.inRange n.toNat then
    let c := limitCollision (s.spriteRows n) answer
    .next ((s.advance.issue (.fbDrawSprite (s.spriteRows n) (s.reg x) (s.reg y) c)).drawn.setReg Reg.vf (flagByte c))
  else raise .memRange s.rangeInfo s

/-- `DRW Vx,Vy,n` (R132). -/
def execDrw (x y : Reg) (n : Nibble) (s : State) : Out :=
  drwWith (Config.collision s.draws (s.spriteRows n) (s.reg x) (s.reg y)) x y n s

/-- A key skip, with the keyboard's answers to each digit: it skips when the key's state is `wanted`; a key number
above 15 is `KEY_RANGE` and no query is made. -/
def keySkipWith (answers : BitVec 16) (wanted : Bool) (x : Reg) (s : State) : Out :=
  if (s.reg x).toNat > 15 then raise .keyRange ((s.reg x).setWidth 16) s
  else
    let down := answers.getLsbD (s.reg x).toNat
    .next ((s.advance.issue (.kbIsKeyDown ((s.reg x).setWidth 4) down)).drawn.skipIf (down == wanted))

/-- `SKP Vx` (R133). -/
def execSkp (x : Reg) (s : State) : Out := keySkipWith (Config.keysDown s.draws) true x s

/-- `SKNP Vx` (R134). -/
def execSknp (x : Reg) (s : State) : Out := keySkipWith (Config.keysDown s.draws) false x s

/-- `LD Vx,K` with the answer of `kb.activeKey()`. -/
def ldKeyWith (answer : Byte) (x : Reg) (s : State) : Out :=
  .next ((s.advance.issue (.kbActiveKey answer)).drawn.setReg x answer)

/-- `LD Vx,K` (R135): it never waits. -/
def execLdKey (x : Reg) (s : State) : Out := ldKeyWith (activeAnswer s.draws) x s

end Sys2Proof.Machine
end

