-- ==== Sys2Proof/Machine/Flow.lean ====
section
/-! DEFINITION. Control transfer and the no-op of an unrecognised word (40_flow.md). A meaning is given the state
before the Step, `pc` at the instruction's own address, and does the whole Step (log entry 13). -/

namespace Sys2Proof.Machine

/-- `RET` (R70): `pc <- pop()`, or `STACK_UNDERFLOW`. -/
def execRet (s : State) : Out :=
  match s.stack.getLast? with
  | none => raise .stackUnderflow 0 s
  | some target => .next (s.popped.jump target)

/-- `JP nnn` (R71). -/
def execJp (nnn : Addr12) (s : State) : Out := .next (s.jump (addrWord nnn))

/-- `CALL nnn` (R72): push the address of the next instruction, or `STACK_OVERFLOW`. -/
def execCall (nnn : Addr12) (s : State) : Out :=
  if s.stackFull then raise .stackOverflow 0 s
  else .next ((s.push s.advance.pc).jump (addrWord nnn))

/-- `JP V0,nnn` (R73). -/
def execJpV0 (nnn : Addr12) (s : State) : Out := .next (s.jump (offsetTarget (s.reg 0) nnn))

/-- The no-op of a word no row selects (R74): it reports the word and the address it was fetched from (R146), and
only `pc` moves on. -/
def execUnrecognised (op : Word) (s : State) : Out :=
  .next (s.advance.issue (.reportUnrecognised op s.pc))

end Sys2Proof.Machine
end

