-- ==== Sys2Proof/Machine/Index.lean ====
section
/-! DEFINITION. The index register and the memory transfers (43_index_memory.md). All range checks precede all
accesses (20_memory.md R46); `I` is left as it is by every transfer (R37). -/

namespace Sys2Proof.Machine

/-- `LD I,nnn` (R110). -/
def execLdI (nnn : Addr12) (s : State) : Out := .next (s.advance.setI (addrWord nnn))

/-- `ADD I,Vx` (R111): the flag is written last (R101). -/
def execAddI (x : Reg) (s : State) : Out :=
  let t := indexSum s.I (s.reg x)
  .next ((s.advance.setI (indexAfter t)).setReg Reg.vf (flagByte (indexOverflow t)))

/-- `LD F,Vx` (R112). -/
def execLdF (x : Reg) (s : State) : Out := .next (s.advance.setI (glyphAddress (s.reg x)))

/-- Bytes stored from `I` up, all or none (R46): the shared end of `LD B` and `LD [I],Vx`. -/
def storeAtIndex (bytes : List Byte) (s : State) : Out :=
  if s.inRange bytes.length then .next { s.advance with memory := s.memory.writeBytes s.I.toNat bytes }
  else raise .memRange s.rangeInfo s

/-- `LD B,Vx` (R113): hundreds, tens, ones at `I`, `I+1`, `I+2`. -/
def execLdB (x : Reg) (s : State) : Out := storeAtIndex (decimalDigits (s.reg x)) s

/-- `LD [I],Vx` (R114): V0..VX at `I`..`I+X`. -/
def execDump (x : Reg) (s : State) : Out := storeAtIndex (s.regsUpTo x) s

/-- `LD Vx,[I]` (R115): `I`..`I+X` into V0..VX. -/
def execLoad (x : Reg) (s : State) : Out :=
  if s.inRange (x.val + 1) then .next (s.advance.loadRegs x)
  else raise .memRange s.rangeInfo s

end Sys2Proof.Machine
end

