-- ==== Sys2Proof/Machine/Skip.lean ====
section
/-! DEFINITION. The conditional skips on registers and immediates (41_skip.md). -/

namespace Sys2Proof.Machine

/-- `SE Vx,nn` (R80). -/
def execSeImm (x : Reg) (nn : Byte) (s : State) : Out := .next (s.advance.skipIf (s.reg x == nn))

/-- `SNE Vx,nn` (R81). -/
def execSneImm (x : Reg) (nn : Byte) (s : State) : Out := .next (s.advance.skipIf (s.reg x != nn))

/-- `SE Vx,Vy` (R82). -/
def execSeReg (x y : Reg) (s : State) : Out := .next (s.advance.skipIf (s.reg x == s.reg y))

/-- `SNE Vx,Vy` (R83). -/
def execSneReg (x y : Reg) (s : State) : Out := .next (s.advance.skipIf (s.reg x != s.reg y))

end Sys2Proof.Machine
end

