-- ==== Sys2Proof/Machine/Timer.lean ====
section
/-! DEFINITION. The timer instructions (44_timers.md). -/

namespace Sys2Proof.Machine

/-- `LD Vx,DT` (R120). -/
def execLdFromDt (x : Reg) (s : State) : Out := .next (s.advance.setReg x s.dt)

/-- `LD DT,Vx` (R121). -/
def execLdToDt (x : Reg) (s : State) : Out := .next { s.advance with dt := s.reg x }

/-- `LD ST,Vx` (R122). -/
def execLdToSt (x : Reg) (s : State) : Out := .next { s.advance with st := s.reg x }

end Sys2Proof.Machine
end

