-- ==== Sys2Proof/Machine/Cycle.lean ====
section
/-! DEFINITION. The instruction cycle (10_state.md R26) and the other four events of the host: `Tick`
(60_exceptions.md R149), `PowerOn`, `LoadProgram`, `Reset` (70_reset_and_hazards.md R160 to R163). -/

namespace Sys2Proof.Machine

/-- The `Step` event (R26): nothing while faulted (R144); else fetch, decode, execute. A word without a row runs the
no-op of R74; `pc` is advanced inside the meaning (log entry 13). -/
def runInstr (s : State) : Out :=
  match s.status with
  | .faulted => .next s
  | .running =>
    match s.fetch with
    | none => raise .fetchRange s.pc s
    | some op =>
      match decodeWord op with
      | .ok i => exec i s
      | .error _ => execUnrecognised op s

/-- One period of a timer: decremented if nonzero (R149). -/
def countDown (t : Byte) : Byte := if t = 0 then 0 else t - 1

/-- The `Tick` event (R149): accepted in every state, the faulted one too. -/
def tick (s : State) : State := { s with dt := countDown s.dt, st := countDown s.st }

/-- Registers, `I`, `pc`, stack and timers to their initial values, and the fault cleared: what `PowerOn`,
`LoadProgram` and `Reset` have in common (R24). -/
def initRegisters (s : State) : State :=
  clearFault { s with v := Vector.replicate 16 0, I := 0, pc := 512, stack := [], dt := 0, st := 0 }

/-- Every byte at its power-on content: the font at 0..79, zero elsewhere (R160). -/
def clearMemory (s : State) : State := { s with memory := [] }

/-- The `PowerOn` event (R160). -/
def powerOn (s : State) : State := clearMemory (initRegisters s)

/-- The `LoadProgram(image)` event: accepted (R161) up to 3584 bytes; a longer image changes nothing and is
reported (R162, R147). -/
def loadProgram (image : List Byte) (s : State) : State :=
  if imageFits image then
    { powerOn s with memory := Memory.writeBytes (powerOn s).memory Config.progBase image }
  else s.issue (.reportLoadError image.length Config.maxProg)

/-- The `Reset` event (R163): memory is kept, the framebuffer is cleared. -/
def hostReset (s : State) : State := (initRegisters s).issue .fbClear

/-- One event of R7. -/
def applyEvent (e : Event) (s : State) : Out :=
  match e with
  | .step => runInstr s
  | .tick => .next (tick s)
  | .reset => .next (hostReset s)
  | .powerOn => .next (powerOn s)
  | .loadProgram image => .next (loadProgram image s)

/-- The next event of the schedule, taken off it; a `Step` where the host has scheduled nothing (log entry 6). -/
def nextEvent (s : State) : Out :=
  match s.schedule with
  | [] => runInstr s
  | e :: rest => applyEvent e { s with schedule := rest }

/-- The machine ready to run one instruction word with its next event: nothing scheduled before it, running, `pc`
inside the range of a fetch, the word's two bytes at `pc` (log entry 10). -/
def readyToRun (word : Word) (s : State) : State :=
  let pc : Word := if s.pc.toNat ≤ 4094 then s.pc else 512
  { clearFault s with
    pc := pc
    schedule := []
    memory := s.memory.writeBytes pc.toNat [highByte word, lowByte word] }

end Sys2Proof.Machine
end

