-- ==== Sys2Proof/Machine/Step.lean ====
section
/-! DEFINITION. One step of the machine: the host's next event (00_scope.md R7), a `Step` where none is
scheduled. -/

namespace Sys2Proof.Machine

/-- One event (R7, R8). Every definition it is made of stands in Machine/Cycle.lean. -/
def step (s : State) : Host.Outcome State Fault Refusal := nextEvent s

/-- The state whose next step runs the word `w` of `nbits` bits (the bits above `nbits` zero). -/
def State.withFetchWord (s : State) (nbits w : Nat) : State := readyToRun (BitVec.ofNat 16 (w % 2 ^ nbits)) s

end Sys2Proof.Machine
end

