-- ==== Sys2Proof/Safety.lean ====
section
/-! DEFINITION. What claims mean by a safe run and by the end of a run: no fault is raised (60_exceptions.md R144),
and the fixed point of 70_reset_and_hazards.md R168. -/

namespace Sys2Proof.Machine

/-- The word stored at `pc`, read as an instruction: `some i` when a fetch at `pc` yields a word that decodes. -/
def State.instrAtPc (s : State) : Option Instr :=
  match s.fetch with
  | none => none
  | some op => (decodeWord op).toOption

/-- A `Step` is the next event of `s`, and `u` is the state it is applied to: `s` itself where nothing is scheduled,
else `s` without that event (00_scope.md R7; log entry 6). -/
def StepDue (s u : State) : Prop :=
  (s.schedule = [] ∧ u = s) ∨ ∃ rest, s.schedule = .step :: rest ∧ u = { s with schedule := rest }

/-- R144: a claim about a program takes "no fault is raised" as something to prove. -/
def Safe (s : State) : Prop := s.status = .running

/-- The first `k` steps from `s` are taken and the machine is running after each of them. -/
def SafeFor : Nat → State → Prop
  | 0, s => Safe s
  | k + 1, s => Safe s ∧ ∃ t, step s = .next t ∧ SafeFor k t

/-- R168: a program is finished when the CORE runs, and the word at `pc` is a `JP` to `pc` itself. -/
def Finished (s : State) : Prop :=
  s.status = .running ∧ ∃ nnn : Addr12, s.pc = addrWord nnn ∧ s.instrAtPc = some (.jp nnn)

/-- R22: the bounds every state reached from `PowerOn` keeps, with the canonical form of memory and the status
registers in agreement (R20, R141). -/
structure Inv (s : State) : Prop where
  /-- R22 (a). -/
  index : s.I.toNat ≤ 0xFFF
  /-- R22 (c): at most `STACK_DEPTH` entries. -/
  depth : s.stack.length ≤ stackDepth
  /-- R22 (c): each entry is at most 0x1000. -/
  entries : ∀ a ∈ s.stack, a.toNat ≤ 0x1000
  /-- R22 (d). -/
  pcBound : s.pc.toNat ≤ 0x10FE
  /-- The canonical form of memory (log entry 9). -/
  memory : s.memory.wf = true
  /-- R20: `fault_cause` and `fault_info` are 0 when running. -/
  running : s.status = .running → s.faultCause = 0 ∧ s.faultInfo = 0
  /-- R141: the code of a cause when faulted. -/
  faulted : s.status = .faulted → 1 ≤ s.faultCause.toNat ∧ s.faultCause.toNat ≤ 5

/-- R141: what each cause says of the state it left. -/
def FaultRecord (s : State) : Prop :=
  s.status = .faulted →
    (s.faultCause = 1 ∧ s.pc.toNat > 4094 ∧ s.faultInfo = s.pc) ∨
    (s.faultCause = 2 ∧ s.faultInfo = 4096) ∨
    (s.faultCause = 3 ∧ s.faultInfo = 0 ∧ s.stack = []) ∨
    (s.faultCause = 4 ∧ s.faultInfo = 0 ∧ s.stack.length = stackDepth) ∨
    (s.faultCause = 5 ∧ 16 ≤ s.faultInfo.toNat ∧ s.faultInfo.toNat ≤ 255)

end Sys2Proof.Machine
end

