-- ==== Sys2Proof/Certificates/Slice0/Obligations.lean ====
section
/-! DEFINITION. The statements for the provers, from the numbered rules of spec/. Each docstring names the rule.
Numbers are written as the rules print them. Each rule statement of an instruction gives its encoding (every word
the row's mask and match select), the whole next state, and its faults. -/

namespace Sys2Proof.Machine

/-- Every word `w` with `w & mask = value` decodes to `instr w` (30_encoding.md R55, R56). -/
def RowDecodes (value mask : Word) (instr : Word → Instr) : Prop :=
  ∀ w : Word, w &&& mask = value → decodeWord w = .ok (instr w)

/-- The instruction completes: the next instruction is due, the registers read as `f` says, and nothing else of the
state has changed. -/
def RegistersBecome (i : Instr) (s : State) (f : Reg → Byte) : Prop :=
  ∃ t, exec i s = .next t ∧ t = { s with pc := s.pc + 2, v := t.v } ∧ ∀ r, t.reg r = f r

/-- The instruction raises a fault: only the status registers change (60_exceptions.md R143). -/
def RaisesFault (i : Instr) (s : State) (cause : BitVec 3) (info : Word) : Prop :=
  exec i s = .next { s with status := .faulted, faultCause := cause, faultInfo := info }

/-- Registers, `I`, `pc`, stack, timers and status as 10_state.md R24 gives them after each host operation. -/
def InitialRegisters (t : State) : Prop :=
  (∀ r, t.reg r = 0) ∧ t.I = 0 ∧ t.pc = 512 ∧ t.stack = [] ∧ t.dt = 0 ∧ t.st = 0 ∧
    t.status = .running ∧ t.faultCause = 0 ∧ t.faultInfo = 0

/-- The registers an instruction names as destination (10_state.md R10). -/
def namesDestination : Instr → Reg → Bool
  | .ldImm x _, r | .addImm x _, r | .ldReg x _, r | .or x _, r | .and x _, r | .xor x _, r | .addReg x _, r
  | .sub x _, r | .shr x _, r | .subn x _, r | .shl x _, r | .rnd x _, r | .ldFromDt x, r | .ldKey x, r => r == x
  | .load x, r => decide (r ≤ x)
  | .cls, _ | .ret, _ | .jp _, _ | .call _, _ | .seImm _ _, _ | .sneImm _ _, _ | .seReg _ _, _ | .sneReg _ _, _
  | .ldI _, _ | .jpV0 _, _ | .drw _ _ _, _ | .skp _, _ | .sknp _, _ | .ldToDt _, _ | .ldToSt _, _ | .addI _, _
  | .ldF _, _ | .ldB _, _ | .dump _, _ => false

/-- The instructions that write VF as a side effect: the rows of the table of 10_state.md R11. -/
def writesFlag : Instr → Bool
  | .or _ _ | .and _ _ | .xor _ _ | .addReg _ _ | .sub _ _ | .shr _ _ | .subn _ _ | .shl _ _ | .addI _
  | .drw _ _ _ => true
  | .cls | .ret | .jp _ | .call _ | .seImm _ _ | .sneImm _ _ | .seReg _ _ | .sneReg _ _ | .ldImm _ _ | .addImm _ _
  | .ldReg _ _ | .ldI _ | .jpV0 _ | .rnd _ _ | .skp _ | .sknp _ | .ldFromDt _ | .ldKey _ | .ldToDt _ | .ldToSt _
  | .ldF _ | .ldB _ | .dump _ | .load _ => false

/-- The mask of each group's rows (30_encoding.md R55): the whole word in group 0, group and low nibble in group 8,
group and low byte in groups E and F, the group alone elsewhere. -/
def maskOfGroup (group : Nibble) : Word :=
  if group = 0x0 then 0xFFFF else if group = 0x8 then 0xF00F else if 0xE ≤ group.toNat then 0xF0FF else 0xF000

/-- The cause and information of the fault a `Step` of the running machine raises, as the table of
60_exceptions.md R141 lists them; none when no condition of the table holds. -/
def faultOfTable (s : State) : Option (BitVec 3 × Word) :=
  let outOfRange (count : Nat) : Option (BitVec 3 × Word) :=
    if s.I.toNat + count > 4096 then some (2, BitVec.ofNat 16 (max s.I.toNat 4096)) else none
  if s.pc.toNat > 4094 then some (1, s.pc)
  else match s.instrAtPc with
    | some (.drw _ _ n) => if n.toNat = 0 then none else outOfRange n.toNat
    | some (.ldB _) => outOfRange 3
    | some (.dump x) => outOfRange (x.val + 1)
    | some (.load x) => outOfRange (x.val + 1)
    | some .ret => if s.stack = [] then some (3, 0) else none
    | some (.call _) => if 16 ≤ s.stack.length then some (4, 0) else none
    | some (.skp x) => if (s.reg x).toNat > 15 then some (5, BitVec.ofNat 16 (s.reg x).toNat) else none
    | some (.sknp x) => if (s.reg x).toNat > 15 then some (5, BitVec.ofNat 16 (s.reg x).toNat) else none
    | _ => none

end Sys2Proof.Machine

open Sys2Proof Sys2Proof.Machine

/-! ## The cycle and the events -/

/-- R26, R14: when the word at `pc` decodes, the step of the running machine is `exec` of that instruction on that
state (which moves `pc` on itself), for an empty schedule and for a scheduled `Step`. -/
def Obligations.StepRunsTheDecodedInstruction : Prop :=
  ∀ (s : State) (w : Word) (i : Instr), s.status = .running → s.fetch = some w → decodeWord w = .ok i →
    (s.schedule = [] → step s = exec i s) ∧
    (∀ rest, s.schedule = .step :: rest → step s = exec i { s with schedule := rest })

/-- R33: a fetch reads the byte at `pc` as the high byte and the next one as the low byte; above 4094 it reads
nothing and a `Step` of the running machine, scheduled or not, faults with FETCH_RANGE(pc). -/
def Obligations.FetchIsBigEndianAndRangeChecked : Prop :=
  ∀ s : State,
    (s.pc.toNat ≤ 4094 → ∃ w, s.fetch = some w ∧
      w.toNat = (s.memory.read s.pc.toNat).toNat <<< 8 ||| (s.memory.read (s.pc.toNat + 1)).toNat) ∧
    (4094 < s.pc.toNat → s.fetch = none ∧
      (s.status = .running → ∀ u, StepDue s u →
        step s = .next { u with status := .faulted, faultCause := 1, faultInfo := s.pc }))

/-- R74: a word no row of the table selects is a no-op: `pc` moves on, the word and the address it was fetched from
are reported, nothing else changes, whether the `Step` was scheduled or not. -/
def Obligations.UnrecognisedWordOnlyReports : Prop :=
  ∀ (s u : State) (w : Word), s.status = .running → StepDue s u → s.fetch = some w →
    (∀ r ∈ opcodeTable, w &&& r.mask ≠ r.value) →
    step s = .next { u with pc := s.pc + 2, outputs := s.outputs ++ [.reportUnrecognised w s.pc] }

/-- R141: a `Step` of the running machine, scheduled or not, faults exactly when a condition of the table holds, with the table's code
and information; otherwise the machine goes on running. -/
def Obligations.StepFaultsExactlyAsTheTableSays : Prop :=
  ∀ s u : State, s.status = .running → StepDue s u →
    match faultOfTable s with
    | some (cause, info) => step s = .next { u with status := .faulted, faultCause := cause, faultInfo := info }
    | none => ∃ t, step s = .next t ∧ t.status = .running ∧ t.faultCause = s.faultCause ∧ t.faultInfo = s.faultInfo

/-- R143: a `Step`, scheduled or not, that ends faulted has changed the status registers and nothing else: pc, registers, stack,
timers, memory are as before and no transaction was issued. -/
def Obligations.FaultEntryIsPrecise : Prop :=
  ∀ s u t : State, s.status = .running → StepDue s u → step s = .next t → t.status = .faulted →
    t = { u with status := .faulted, faultCause := t.faultCause, faultInfo := t.faultInfo } ∧
      1 ≤ t.faultCause.toNat ∧ t.faultCause.toNat ≤ 5

/-- R144: while faulted a `Step` does nothing and a `Tick` still counts; `Reset`, an accepted `LoadProgram` and
`PowerOn` set the machine running and clear the fault registers; a rejected `LoadProgram` leaves the fault. -/
def Obligations.FaultedMachineWaitsForTheHost : Prop :=
  ∀ s : State, s.status = .faulted →
    (s.schedule = [] → step s = .next s) ∧
    (∀ rest, s.schedule = .step :: rest → step s = .next { s with schedule := rest }) ∧
    (∀ rest, s.schedule = .tick :: rest → ∃ t, step s = .next t ∧
      t = { s with schedule := rest, dt := t.dt, st := t.st } ∧
      t.dt.toNat = s.dt.toNat - 1 ∧ t.st.toNat = s.st.toNat - 1) ∧
    (∀ rest, s.schedule = .reset :: rest → ∃ t, step s = .next t ∧ InitialRegisters t) ∧
    (∀ rest, s.schedule = .powerOn :: rest → ∃ t, step s = .next t ∧ InitialRegisters t) ∧
    (∀ image rest, s.schedule = .loadProgram image :: rest → image.length ≤ 3584 →
      ∃ t, step s = .next t ∧ InitialRegisters t) ∧
    (∀ image rest, s.schedule = .loadProgram image :: rest → 3584 < image.length → ∃ t, step s = .next t ∧
      t.status = .faulted ∧ t.faultCause = s.faultCause ∧ t.faultInfo = s.faultInfo)

/-- R149: `Tick` decrements each timer by 1 if it is nonzero, each on its own, in every state, and changes nothing
else. -/
def Obligations.TickDecrementsNonzeroTimers : Prop :=
  ∀ (s : State) (rest : List Event), s.schedule = .tick :: rest → ∃ t, step s = .next t ∧
    t = { s with schedule := rest, dt := t.dt, st := t.st } ∧
    (s.dt = 0 → t.dt = 0) ∧ (s.dt ≠ 0 → t.dt.toNat + 1 = s.dt.toNat) ∧
    (s.st = 0 → t.st = 0) ∧ (s.st ≠ 0 → t.st.toNat + 1 = s.st.toNat)

/-- R160, R24: `PowerOn` in any state gives the initial registers, the font at 0..79 and zero elsewhere, issues no
transaction, and equals `LoadProgram` of the empty image. The font's bytes are a parameter (log entry 1). -/
def Obligations.PowerOnGivesTheInitialState : Prop :=
  ∀ (s : State) (rest : List Event), s.schedule = .powerOn :: rest → ∃ t, step s = .next t ∧
    InitialRegisters t ∧ (∀ a, t.memory.read a = if a < 80 then fontset.getD a 0 else 0) ∧
    t.outputs = s.outputs ∧ t.schedule = rest ∧
    step { s with schedule := .loadProgram [] :: rest } = .next t

/-- R161: an accepted `LoadProgram` puts byte `i` of the image at `512 + i`, the font at 0..79, zero elsewhere, gives
the initial registers, and issues no transaction, in every state. -/
def Obligations.LoadProgramPlacesTheImage : Prop :=
  ∀ (s : State) (image : List Byte) (rest : List Event), s.schedule = .loadProgram image :: rest →
    image.length ≤ 3584 → ∃ t, step s = .next t ∧ InitialRegisters t ∧
      (∀ k, (h : k < image.length) → t.memory.read (512 + k) = image[k]) ∧
      (∀ a, a < 80 → t.memory.read a = fontset.getD a 0) ∧
      (∀ a, 80 ≤ a → a < 512 ∨ 512 + image.length ≤ a → t.memory.read a = 0) ∧
      t.outputs = s.outputs ∧ t.schedule = rest

/-- R162 with R147: an image of more than 3584 bytes changes nothing; the host is told the length and the limit. -/
def Obligations.OversizedLoadChangesNothing : Prop :=
  ∀ (s : State) (image : List Byte) (rest : List Event), s.schedule = .loadProgram image :: rest →
    3584 < image.length →
    step s = .next { s with schedule := rest, outputs := s.outputs ++ [.reportLoadError image.length 3584] }

/-- R163: `Reset` gives the initial registers, keeps all of memory, clears the framebuffer, in every state. The last
two clauses are no rule of the spec but the model's choice: the event is taken off the schedule (log entry 6), and the
count of draws is kept (log entry 19, with log entry 4). -/
def Obligations.ResetKeepsMemoryAndClearsTheScreen : Prop :=
  ∀ (s : State) (rest : List Event), s.schedule = .reset :: rest → ∃ t, step s = .next t ∧
    InitialRegisters t ∧ t.memory = s.memory ∧ t.outputs = s.outputs ++ [.fbClear] ∧ t.schedule = rest ∧
    t.draws = s.draws

/-- R7: an event issues at most one transaction or report. -/
def Obligations.EachEventIssuesAtMostOneTransaction : Prop :=
  ∀ s t : State, step s = .next t → t.outputs = s.outputs ∨ ∃ tr, t.outputs = s.outputs ++ [tr]

/-- R140, R57: every event, in every state, completes in a next state. (A fault of the spec is a next state: log
entry 7.) -/
def Obligations.EveryEventCompletes : Prop := ∀ s : State, ∃ t, step s = .next t

/-! ## Encoding -/

/-- R50 to R56: decoding the word, or the bytes, of any instruction gives it back, with every operand at every
value. -/
def Obligations.DecodeOfEncodeIsTheInstruction : Prop :=
  ∀ (i : Instr) (rest : List Byte), i.wellFormed = true ∧ decodeWord (encode i) = .ok i ∧
    decodeBytes (encodeBytes i ++ rest) = .ok (i, rest)

/-- R56, R58: a word that decodes is the encoding of its instruction, but for the ignored low nibble of groups 5 and
9, which the encoding clears. -/
def Obligations.EncodeOfDecodeIsTheCanonicalWord : Prop :=
  ∀ (w : Word) (i : Instr), decodeWord w = .ok i → encode i = canonicalWord w

/-- R55: the decoder selects the row with `op & mask = match`, each row has its group's mask, no two of the 34 rows
match the same word, and a word that matches none is rejected as unrecognised. -/
def Obligations.DecoderSelectsByMaskAndMatch : Prop :=
  opcodeTable.length = 34 ∧ (∀ r ∈ opcodeTable, r.mask = maskOfGroup (fieldG r.value)) ∧
  (∀ r ∈ opcodeTable, ∀ w : Word, w &&& r.mask = r.value → decodeWord w = .ok (r.instr w)) ∧
  (∀ w : Word, (∀ r ∈ opcodeTable, w &&& r.mask ≠ r.value) → decodeWord w = .error (.unrecognised w)) ∧
  (∀ r₁ ∈ opcodeTable, ∀ r₂ ∈ opcodeTable, ∀ w : Word,
    w &&& r₁.mask = r₁.value → w &&& r₂.mask = r₂.value → r₁ = r₂)

/-- R57: the unrecognised words are exactly those of its table (the counts it adds are not stated here). -/
def Obligations.UnrecognisedWordsAreThoseOfTheList : Prop :=
  ∀ w : Word, decodeWord w = .error (.unrecognised w) ↔
    (w.toNat / 4096 = 0 ∧ w.toNat ≠ 0x0E0 ∧ w.toNat ≠ 0x0EE) ∨
    (w.toNat / 4096 = 8 ∧ w.toNat % 16 ∈ [0x8, 0x9, 0xA, 0xB, 0xC, 0xD, 0xF]) ∨
    (w.toNat / 4096 = 0xE ∧ w.toNat % 256 ∉ [0x9E, 0xA1]) ∨
    (w.toNat / 4096 = 0xF ∧ w.toNat % 256 ∉ [0x07, 0x0A, 0x15, 0x18, 0x1E, 0x29, 0x33, 0x55, 0x65])

/-- R52: a word is put together again from its fields, and `NN`, `NNN` from theirs. -/
def Obligations.WordIsRebuiltFromItsFields : Prop :=
  ∀ w : Word,
    w.toNat = (fieldG w).toNat <<< 12 ||| (fieldX w).val <<< 8 ||| (fieldY w).val <<< 4 ||| (fieldN w).toNat ∧
    (fieldNN w).toNat = (fieldY w).val <<< 4 ||| (fieldN w).toNat ∧
    (fieldNNN w).toNat = (fieldX w).val <<< 8 ||| (fieldY w).val <<< 4 ||| (fieldN w).toNat

/-- R58 (a), (b): the low nibble of groups 5 and 9 changes nothing; the field `Y` of the shifts is decoded and
changes nothing that they do. -/
def Obligations.IgnoredFieldsChangeNothing : Prop :=
  (∀ w w' : Word, (fieldG w = 5 ∨ fieldG w = 9) → w.toNat / 16 = w'.toNat / 16 → decodeWord w' = decodeWord w) ∧
  (∀ (s : State) (x y y' : Reg), exec (.shr x y) s = exec (.shr x y') s ∧ exec (.shl x y) s = exec (.shl x y') s)

/-- 95_test_vectors.md 2.7 and R56: words written out from the spec's patterns, one or more of each family. -/
def Obligations.WordsOfTheSpecDecode : Prop :=
  decodeWord 0x00E0 = .ok .cls ∧ decodeWord 0x00EE = .ok .ret ∧ decodeWord 0x10E0 = .ok (.jp 0x0E0) ∧
  decodeWord 0x5ABF = .ok (.seReg 10 11) ∧ decodeWord 0x7103 = .ok (.addImm 1 0x03) ∧
  decodeWord 0x8AB5 = .ok (.sub 10 11) ∧ decodeWord 0x8AB7 = .ok (.subn 10 11) ∧
  decodeWord 0xA2F0 = .ok (.ldI 0x2F0) ∧ decodeWord 0xD125 = .ok (.drw 1 2 5) ∧
  decodeWord 0xEFA1 = .ok (.sknp 15) ∧ decodeWord 0xF515 = .ok (.ldToDt 5) ∧ decodeWord 0xF155 = .ok (.dump 1) ∧
  decodeWord 0xF265 = .ok (.load 2) ∧ decodeWord 0x8AB8 = .error (.unrecognised 0x8AB8) ∧
  decodeWord 0xF030 = .error (.unrecognised 0xF030) ∧ decodeWord 0x0000 = .error (.unrecognised 0x0000)

/-! ## Control transfer (40_flow.md) -/

/-- R70: `RET` takes the newest entry off the stack into `pc`, as it is; on an empty stack STACK_UNDERFLOW. -/
def Obligations.RetPopsThePc : Prop :=
  RowDecodes 0x00EE 0xFFFF (fun _ => .ret) ∧
  (∀ (s : State) (older : List Word) (a : Word), s.stack = older ++ [a] →
    exec .ret s = .next { s with pc := a, stack := older }) ∧
  (∀ s : State, s.stack = [] → RaisesFault .ret s 3 0)

/-- R71: `JP nnn` sets `pc` to `NNN` exactly, and nothing else. -/
def Obligations.JpSetsThePc : Prop :=
  RowDecodes 0x1000 0xF000 (fun w => .jp (fieldNNN w)) ∧
  ∀ (s : State) (nnn : Addr12), ∃ t, exec (.jp nnn) s = .next t ∧ t = { s with pc := t.pc } ∧ t.pc.toNat = nnn.toNat

/-- R72: `CALL nnn` pushes the address of the next instruction and jumps; with 16 entries on the stack
STACK_OVERFLOW. -/
def Obligations.CallPushesTheReturnAddress : Prop :=
  RowDecodes 0x2000 0xF000 (fun w => .call (fieldNNN w)) ∧
  (∀ (s : State) (nnn : Addr12), s.stack.length < 16 → ∃ t, exec (.call nnn) s = .next t ∧
    t = { s with pc := t.pc, stack := s.stack ++ [s.pc + 2] } ∧ t.pc.toNat = nnn.toNat) ∧
  (∀ (s : State) (nnn : Addr12), 16 ≤ s.stack.length → RaisesFault (.call nnn) s 4 0)

/-- R73: `JP V0,nnn` sets `pc` to `x[0] + NNN`, not reduced modulo 4096, and nothing else. -/
def Obligations.JpV0AddsTheOffset : Prop :=
  RowDecodes 0xB000 0xF000 (fun w => .jpV0 (fieldNNN w)) ∧
  ∀ (s : State) (nnn : Addr12), ∃ t, exec (.jpV0 nnn) s = .next t ∧ t = { s with pc := t.pc } ∧
    t.pc.toNat = (s.reg 0).toNat + nnn.toNat

/-! ## Skips (41_skip.md) -/

/-- R80, R81: the skips on an immediate move `pc` on by 4 when the condition holds, else by 2, and change nothing
else. -/
def Obligations.ImmediateSkipsMoveThePc : Prop :=
  RowDecodes 0x3000 0xF000 (fun w => .seImm (fieldX w) (fieldNN w)) ∧
  RowDecodes 0x4000 0xF000 (fun w => .sneImm (fieldX w) (fieldNN w)) ∧
  ∀ (s : State) (x : Reg) (nn : Byte),
    exec (.seImm x nn) s = .next { s with pc := if s.reg x = nn then s.pc + 4 else s.pc + 2 } ∧
    exec (.sneImm x nn) s = .next { s with pc := if s.reg x = nn then s.pc + 2 else s.pc + 4 }

/-- R82, R83: the skips on two registers; the low nibble of the word is not decoded. -/
def Obligations.RegisterSkipsMoveThePc : Prop :=
  RowDecodes 0x5000 0xF000 (fun w => .seReg (fieldX w) (fieldY w)) ∧
  RowDecodes 0x9000 0xF000 (fun w => .sneReg (fieldX w) (fieldY w)) ∧
  ∀ (s : State) (x y : Reg),
    exec (.seReg x y) s = .next { s with pc := if s.reg x = s.reg y then s.pc + 4 else s.pc + 2 } ∧
    exec (.sneReg x y) s = .next { s with pc := if s.reg x = s.reg y then s.pc + 2 else s.pc + 4 }

/-! ## Registers and ALU (42_alu.md) -/

/-- R90, R92: the loads write `x[X]` and no flag. -/
def Obligations.RegisterLoadsWriteTheDestination : Prop :=
  RowDecodes 0x6000 0xF000 (fun w => .ldImm (fieldX w) (fieldNN w)) ∧
  RowDecodes 0x8000 0xF00F (fun w => .ldReg (fieldX w) (fieldY w)) ∧
  (∀ (s : State) (x : Reg) (nn : Byte), RegistersBecome (.ldImm x nn) s fun r => if r = x then nn else s.reg r) ∧
  (∀ (s : State) (x y : Reg), RegistersBecome (.ldReg x y) s fun r => if r = x then s.reg y else s.reg r)

/-- R91: `ADD Vx,nn` adds modulo 256 and writes no flag; with `X = 15` VF ends as the sum. -/
def Obligations.AddImmediateWrapsWithoutFlag : Prop :=
  RowDecodes 0x7000 0xF000 (fun w => .addImm (fieldX w) (fieldNN w)) ∧
  ∀ (s : State) (x : Reg) (nn : Byte), RegistersBecome (.addImm x nn) s fun r =>
    if r = x then BitVec.ofNat 8 (((s.reg x).toNat + nn.toNat) % 256) else s.reg r

/-- R93, R94, R95: the logic instructions write the bitwise result, and VF always ends 0. -/
def Obligations.LogicInstructionsClearVf : Prop :=
  RowDecodes 0x8001 0xF00F (fun w => .or (fieldX w) (fieldY w)) ∧
  RowDecodes 0x8002 0xF00F (fun w => .and (fieldX w) (fieldY w)) ∧
  RowDecodes 0x8003 0xF00F (fun w => .xor (fieldX w) (fieldY w)) ∧
  ∀ (s : State) (x y : Reg),
    (RegistersBecome (.or x y) s fun r => if r = 15 then 0 else if r = x then s.reg x ||| s.reg y else s.reg r) ∧
    (RegistersBecome (.and x y) s fun r => if r = 15 then 0 else if r = x then s.reg x &&& s.reg y else s.reg r) ∧
    (RegistersBecome (.xor x y) s fun r => if r = 15 then 0 else if r = x then s.reg x ^^^ s.reg y else s.reg r)

/-- R96: `ADD Vx,Vy` writes the sum modulo 256, and VF ends as the carry. -/
def Obligations.AddRegistersSetsCarry : Prop :=
  RowDecodes 0x8004 0xF00F (fun w => .addReg (fieldX w) (fieldY w)) ∧
  ∀ (s : State) (x y : Reg), RegistersBecome (.addReg x y) s fun r =>
    if r = 15 then (if (s.reg x).toNat + (s.reg y).toNat > 255 then 1 else 0)
    else if r = x then BitVec.ofNat 8 (((s.reg x).toNat + (s.reg y).toNat) % 256) else s.reg r

/-- R97, R99: the subtractions write the difference modulo 256, and VF ends as "no borrow". -/
def Obligations.SubtractionsSetNoBorrow : Prop :=
  RowDecodes 0x8005 0xF00F (fun w => .sub (fieldX w) (fieldY w)) ∧
  RowDecodes 0x8007 0xF00F (fun w => .subn (fieldX w) (fieldY w)) ∧
  (∀ (s : State) (x y : Reg), RegistersBecome (.sub x y) s fun r =>
    if r = 15 then (if (s.reg x).toNat ≥ (s.reg y).toNat then 1 else 0)
    else if r = x then BitVec.ofNat 8 ((256 + (s.reg x).toNat - (s.reg y).toNat) % 256) else s.reg r) ∧
  (∀ (s : State) (x y : Reg), RegistersBecome (.subn x y) s fun r =>
    if r = 15 then (if (s.reg y).toNat ≥ (s.reg x).toNat then 1 else 0)
    else if r = x then BitVec.ofNat 8 ((256 + (s.reg y).toNat - (s.reg x).toNat) % 256) else s.reg r)

/-- R98, R100: the shifts move `x[X]` by one place, whatever `Y` is, and VF ends as the bit moved out. -/
def Obligations.ShiftsMoveOneBitIntoVf : Prop :=
  RowDecodes 0x8006 0xF00F (fun w => .shr (fieldX w) (fieldY w)) ∧
  RowDecodes 0x800E 0xF00F (fun w => .shl (fieldX w) (fieldY w)) ∧
  (∀ (s : State) (x y : Reg), RegistersBecome (.shr x y) s fun r =>
    if r = 15 then BitVec.ofNat 8 ((s.reg x).toNat % 2)
    else if r = x then BitVec.ofNat 8 ((s.reg x).toNat / 2) else s.reg r) ∧
  (∀ (s : State) (x y : Reg), RegistersBecome (.shl x y) s fun r =>
    if r = 15 then BitVec.ofNat 8 ((s.reg x).toNat / 128)
    else if r = x then BitVec.ofNat 8 ((s.reg x).toNat * 2 % 256) else s.reg r)

/-! ## Index register and memory (43_index_memory.md) -/

/-- R110, R112: `LD I,nnn` writes `NNN`; `LD F,Vx` writes `x[X] * 5`, the register not masked to a digit; nothing
else changes. -/
def Obligations.IndexLoadsWriteOnlyTheIndex : Prop :=
  RowDecodes 0xA000 0xF000 (fun w => .ldI (fieldNNN w)) ∧
  RowDecodes 0xF029 0xF0FF (fun w => .ldF (fieldX w)) ∧
  (∀ (s : State) (nnn : Addr12), ∃ t, exec (.ldI nnn) s = .next t ∧
    t = { s with pc := s.pc + 2, I := t.I } ∧ t.I.toNat = nnn.toNat) ∧
  (∀ (s : State) (x : Reg), ∃ t, exec (.ldF x) s = .next t ∧
    t = { s with pc := s.pc + 2, I := t.I } ∧ t.I.toNat = (s.reg x).toNat * 5)

/-- R111: `ADD I,Vx` adds; past 0xFFF the sum is taken modulo 4096 and VF ends 1, else VF ends 0. -/
def Obligations.AddIndexWrapsAt4096WithFlag : Prop :=
  RowDecodes 0xF01E 0xF0FF (fun w => .addI (fieldX w)) ∧
  ∀ (s : State) (x : Reg), ∃ t, exec (.addI x) s = .next t ∧
    t = { s with pc := s.pc + 2, I := t.I, v := t.v } ∧
    (s.I.toNat + (s.reg x).toNat > 0xFFF →
      t.I.toNat = (s.I.toNat + (s.reg x).toNat) % 4096 ∧ ∀ r, t.reg r = if r = 15 then 1 else s.reg r) ∧
    (s.I.toNat + (s.reg x).toNat ≤ 0xFFF →
      t.I.toNat = s.I.toNat + (s.reg x).toNat ∧ ∀ r, t.reg r = if r = 15 then 0 else s.reg r)

/-- R113: `LD B,Vx` stores hundreds, tens and ones of `x[X]` at `I`, `I+1`, `I+2` and changes no other byte and no
register; with `I + 2 > 4095` MEM_RANGE and nothing stored. -/
def Obligations.BcdStoresThreeDigits : Prop :=
  RowDecodes 0xF033 0xF0FF (fun w => .ldB (fieldX w)) ∧
  (∀ (s : State) (x : Reg), s.memory.wf = true → s.I.toNat + 2 ≤ 4095 → ∃ t, exec (.ldB x) s = .next t ∧
    t = { s with pc := s.pc + 2, memory := t.memory } ∧
    ∀ a, t.memory.read a =
      if a = s.I.toNat then BitVec.ofNat 8 ((s.reg x).toNat / 100)
      else if a = s.I.toNat + 1 then BitVec.ofNat 8 ((s.reg x).toNat / 10 % 10)
      else if a = s.I.toNat + 2 then BitVec.ofNat 8 ((s.reg x).toNat % 10)
      else s.memory.read a) ∧
  (∀ (s : State) (x : Reg), 4095 < s.I.toNat + 2 →
    RaisesFault (.ldB x) s 2 (BitVec.ofNat 16 (max s.I.toNat 4096)))

/-- R114: `LD [I],Vx` stores V0..VX at `I`..`I+X`, V0 lowest, and changes no other byte, no register and not `I`;
with `I + X > 4095` MEM_RANGE and nothing stored. -/
def Obligations.DumpStoresTheRegisters : Prop :=
  RowDecodes 0xF055 0xF0FF (fun w => .dump (fieldX w)) ∧
  (∀ (s : State) (x : Reg), s.memory.wf = true → s.I.toNat + x.val ≤ 4095 → ∃ t, exec (.dump x) s = .next t ∧
    t = { s with pc := s.pc + 2, memory := t.memory } ∧
    (∀ r : Reg, r ≤ x → t.memory.read (s.I.toNat + r.val) = s.reg r) ∧
    (∀ a, a < s.I.toNat ∨ s.I.toNat + x.val < a → t.memory.read a = s.memory.read a)) ∧
  (∀ (s : State) (x : Reg), 4095 < s.I.toNat + x.val →
    RaisesFault (.dump x) s 2 (BitVec.ofNat 16 (max s.I.toNat 4096)))

/-- R115: `LD Vx,[I]` loads V0..VX from `I`..`I+X` and changes no other register, no byte and not `I`; with
`I + X > 4095` MEM_RANGE and nothing loaded. -/
def Obligations.LoadReadsTheRegisters : Prop :=
  RowDecodes 0xF065 0xF0FF (fun w => .load (fieldX w)) ∧
  (∀ (s : State) (x : Reg), s.I.toNat + x.val ≤ 4095 → RegistersBecome (.load x) s fun r =>
    if r ≤ x then s.memory.read (s.I.toNat + r.val) else s.reg r) ∧
  (∀ (s : State) (x : Reg), 4095 < s.I.toNat + x.val →
    RaisesFault (.load x) s 2 (BitVec.ofNat 16 (max s.I.toNat 4096)))

/-! ## Timers (44_timers.md) -/

/-- R120: `LD Vx,DT` writes the delay timer's value to `x[X]` and changes nothing else. -/
def Obligations.DelayTimerIsRead : Prop :=
  RowDecodes 0xF007 0xF0FF (fun w => .ldFromDt (fieldX w)) ∧
  ∀ (s : State) (x : Reg), RegistersBecome (.ldFromDt x) s fun r => if r = x then s.dt else s.reg r

/-- R121, R122: `LD DT,Vx` and `LD ST,Vx` write one timer each and change nothing else. -/
def Obligations.TimersAreWrittenIndependently : Prop :=
  RowDecodes 0xF015 0xF0FF (fun w => .ldToDt (fieldX w)) ∧
  RowDecodes 0xF018 0xF0FF (fun w => .ldToSt (fieldX w)) ∧
  ∀ (s : State) (x : Reg),
    exec (.ldToDt x) s = .next { s with pc := s.pc + 2, dt := s.reg x } ∧
    exec (.ldToSt x) s = .next { s with pc := s.pc + 2, st := s.reg x }

/-! ## Collaborators (45_collaborators.md) -/

/-- R130: `CLS` issues one `fb.clear()` and changes nothing but `pc`. -/
def Obligations.ClsOnlyClearsTheScreen : Prop :=
  RowDecodes 0x00E0 0xFFFF (fun _ => .cls) ∧
  ∀ s : State, exec .cls s = .next { s with pc := s.pc + 2, outputs := s.outputs ++ [.fbClear] }

/-- R131: `RND Vx,nn` takes one byte of the random source, a free value, and writes its AND with `NN`; the next
answer is another draw. -/
def Obligations.RndMasksAFreeByte : Prop :=
  RowDecodes 0xC000 0xF000 (fun w => .rnd (fieldX w) (fieldNN w)) ∧
  ∀ (s : State) (x : Reg) (nn : Byte), ∃ t, exec (.rnd x nn) s = .next t ∧
    t = { s with pc := s.pc + 2, v := t.v, draws := s.draws + 1,
                 outputs := s.outputs ++ [.rngByte (Config.randomByte s.draws)] } ∧
    (∀ r, t.reg r = if r = x then Config.randomByte s.draws &&& nn else s.reg r) ∧
    t.reg x &&& ~~~nn = 0

/-- R132: `DRW Vx,Vy,n` reads `N` rows from `I` up, passes them with the unreduced coordinates, and VF ends as the
collision answer, a free value (`false` for no rows); with `N > 0` and `I + N - 1 > 4095` MEM_RANGE and no
transaction. -/
def Obligations.DrawPassesTheRowsAndTakesTheCollision : Prop :=
  RowDecodes 0xD000 0xF000 (fun w => .drw (fieldX w) (fieldY w) (fieldN w)) ∧
  (∀ (s : State) (x y : Reg) (n : Nibble), (n.toNat = 0 ∨ s.I.toNat + n.toNat - 1 ≤ 4095) →
    ∃ (t : State) (rows : List Byte) (c : Bool), exec (.drw x y n) s = .next t ∧
      rows.length = n.toNat ∧ (∀ k, k < n.toNat → rows[k]? = some (s.memory.read (s.I.toNat + k))) ∧
      (n.toNat = 0 → c = false) ∧ (n.toNat ≠ 0 → c = Config.collision s.draws rows (s.reg x) (s.reg y)) ∧
      t = { s with pc := s.pc + 2, v := t.v, draws := s.draws + 1,
                   outputs := s.outputs ++ [.fbDrawSprite rows (s.reg x) (s.reg y) c] } ∧
      (∀ r, t.reg r = if r = 15 then (if c then 1 else 0) else s.reg r)) ∧
  (∀ (s : State) (x y : Reg) (n : Nibble), n.toNat ≠ 0 → 4095 < s.I.toNat + n.toNat - 1 →
    RaisesFault (.drw x y n) s 2 (BitVec.ofNat 16 (max s.I.toNat 4096)))

/-- R133, R134: `SKP` and `SKNP` ask the keyboard about key `x[X]` and skip on its answer, a free value; a key number
above 15 is KEY_RANGE and nothing is asked. -/
def Obligations.KeySkipsFollowTheKeyboard : Prop :=
  RowDecodes 0xE09E 0xF0FF (fun w => .skp (fieldX w)) ∧
  RowDecodes 0xE0A1 0xF0FF (fun w => .sknp (fieldX w)) ∧
  (∀ (s : State) (x : Reg) (k : Nibble), (s.reg x).toNat = k.toNat →
    let down := (Config.keysDown s.draws).getLsbD k.toNat
    exec (.skp x) s = .next { s with
      pc := if down then s.pc + 4 else s.pc + 2
      draws := s.draws + 1
      outputs := s.outputs ++ [.kbIsKeyDown k down] } ∧
    exec (.sknp x) s = .next { s with
      pc := if down then s.pc + 2 else s.pc + 4
      draws := s.draws + 1
      outputs := s.outputs ++ [.kbIsKeyDown k down] }) ∧
  (∀ (s : State) (x : Reg), 15 < (s.reg x).toNat →
    RaisesFault (.skp x) s 5 (BitVec.ofNat 16 (s.reg x).toNat) ∧
    RaisesFault (.sknp x) s 5 (BitVec.ofNat 16 (s.reg x).toNat))

/-- R135, R137: `LD Vx,K` completes at once and writes the keyboard's answer, a free value that is a hex digit when a
key is down. -/
def Obligations.ActiveKeyIsReadWithoutWaiting : Prop :=
  RowDecodes 0xF00A 0xF0FF (fun w => .ldKey (fieldX w)) ∧
  ∀ (s : State) (x : Reg), ∃ (t : State) (answer : Byte), exec (.ldKey x) s = .next t ∧
    t = { s with pc := s.pc + 2, v := t.v, draws := s.draws + 1, outputs := s.outputs ++ [.kbActiveKey answer] } ∧
    (∀ r, t.reg r = if r = x then answer else s.reg r) ∧
    (Config.keysDown s.draws ≠ 0 → answer.toNat = (Config.activeByte s.draws).toNat % 16) ∧
    (Config.keysDown s.draws = 0 → answer = Config.activeByte s.draws)

/-! ## Rules about the whole machine -/

/-- R22, R20, R141: an event keeps the bounds of `I`, the stack, its entries and `pc`, the canonical form of memory
and the agreement of the status registers, from every state that has them. -/
def Obligations.EventsKeepTheInvariant : Prop :=
  ∀ s t : State, Inv s → step s = .next t → Inv t

/-- R141: what the fault registers say of the state stays true: the pc of FETCH_RANGE, 4096 for MEM_RANGE, an empty or
a full stack, a key number above 15. -/
def Obligations.EventsKeepTheFaultRecordTrue : Prop :=
  ∀ s t : State, Inv s → FaultRecord s → step s = .next t → FaultRecord t

/-- R24: the invariant and the fault record hold after reset. -/
def Obligations.ResetHasTheInvariant : Prop := Inv State.reset ∧ FaultRecord State.reset ∧ InitialRegisters State.reset

/-- R36, R46: an event keeps memory inside 0..4095 and in its canonical form, whatever the other state (the form is
the model's choice: log entry 9). -/
def Obligations.EventsKeepMemoryCanonical : Prop :=
  ∀ s t : State, s.memory.wf = true → step s = .next t → t.memory.wf = true

/-- Log entry 9 (the model's choice of form): memories in canonical form that read alike are equal. -/
def Obligations.CanonicalMemoriesReadingAlikeAreEqual : Prop :=
  ∀ m m' : Memory, m.wf = true → m'.wf = true → (∀ a, m.read a = m'.read a) → m = m'

/-- R12, R16, R17, R18, R31, R25: an instruction changes DT, ST, I, the stack and memory only if it is one of those
the access summary names. -/
def Obligations.OnlyTheNamedInstructionsWriteEachState : Prop :=
  ∀ (i : Instr) (s t : State), exec i s = .next t →
    (t.dt ≠ s.dt → ∃ x, i = .ldToDt x) ∧
    (t.st ≠ s.st → ∃ x, i = .ldToSt x) ∧
    (t.I ≠ s.I → (∃ nnn, i = .ldI nnn) ∨ (∃ x, i = .addI x) ∨ ∃ x, i = .ldF x) ∧
    (t.stack ≠ s.stack → i = .ret ∨ ∃ nnn, i = .call nnn) ∧
    (t.memory ≠ s.memory → (∃ x, i = .ldB x) ∨ ∃ x, i = .dump x) ∧
    (t.pc ≠ s.pc + 2 → t.status = .faulted ∨ i = .ret ∨ (∃ nnn, i = .jp nnn ∨ i = .call nnn ∨ i = .jpV0 nnn) ∨
      (∃ x nn, i = .seImm x nn ∨ i = .sneImm x nn) ∨ (∃ x y, i = .seReg x y ∨ i = .sneReg x y) ∨
      ∃ x, i = .skp x ∨ i = .sknp x) ∧
    t.schedule = s.schedule

/-- R10, R11: an instruction changes a register only as its named destination, or VF as the flag of one of the table's
rows; the flag is 0 or 1, also when the destination is VF itself (R101). -/
def Obligations.RegistersAreWrittenOnlyAsNamed : Prop :=
  ∀ (i : Instr) (s t : State), exec i s = .next t →
    (∀ r, t.reg r ≠ s.reg r → namesDestination i r = true ∨ (r = 15 ∧ writesFlag i = true)) ∧
    (writesFlag i = true → s.status = .running → t.status = .running → t.reg 15 = 0 ∨ t.reg 15 = 1)

/-- R18: the sound timer influences nothing: two states that differ in ST alone step to states that differ in ST
alone, given the same collaborator answers (log entry 4, the model's choice: two states with the same count of draws
take the same answers, where two machines need not). -/
def Obligations.SoundTimerInfluencesNothing : Prop :=
  ∀ (s t : State) (b : Byte), step s = .next t → ∃ c, step { s with st := b } = .next { t with st := c }

/-- R168: at a JP to itself every further `Step`, scheduled or not, leaves the whole state unchanged, and a `Tick` keeps the program
finished. -/
def Obligations.JumpToSelfIsAFixedPoint : Prop :=
  ∀ s : State, Finished s →
    (∀ u, StepDue s u → step s = .next u ∧ Finished u) ∧
    (∀ rest, s.schedule = .tick :: rest → ∃ t, step s = .next t ∧ Finished t)

/-- R43: the two bytes a register dump stores at the next instruction's address are the word the next fetch
reads. -/
def Obligations.StoreIsSeenByTheNextFetch : Prop :=
  ∀ (s : State) (x : Reg), s.memory.wf = true → 1 ≤ x.val → s.I.toNat = s.pc.toNat + 2 →
    s.I.toNat + x.val ≤ 4095 →
    ∃ t w, exec (.dump x) s = .next t ∧ t.fetch = some w ∧ w.toNat = (s.reg 0).toNat * 256 + (s.reg 1).toNat

/-- R70, R72: a return undoes a call: `pc` is at the instruction after the call and the stack is as before it. -/
def Obligations.ReturnUndoesTheCall : Prop :=
  ∀ (s : State) (nnn : Addr12), s.stack.length < 16 →
    ∃ t, exec (.call nnn) s = .next t ∧ exec .ret t = .next { s with pc := s.pc + 2 }

/-- R114, R115, R45: registers dumped to memory and loaded back have their values again, whatever the register file
held in between. -/
def Obligations.LoadRestoresDumpedRegisters : Prop :=
  ∀ (s : State) (x : Reg) (between : Vector Byte 16), s.memory.wf = true → s.I.toNat + x.val ≤ 4095 →
    ∃ t u, exec (.dump x) s = .next t ∧ exec (.load x) { t with v := between } = .next u ∧
      ∀ r : Reg, r ≤ x → u.reg r = s.reg r
end

