-- ==== Sys2Proof/Laws/Decode.lean ====
section
/-! SUPPORT. The fields of an assembled word, the fields under the four masks of R55, and a word put together from
its fields: the lemmas from which decoding facts follow without looking at bits again. -/

namespace Sys2Proof

/-! ## Fields as numbers (R51) -/

theorem toNat_fieldG (w : Word) : (fieldG w).toNat = w.toNat / 4096 := by
  have := w.isLt
  simp only [fieldG, BitVec.extractLsb'_toNat, Nat.shiftRight_eq_div_pow]
  omega

theorem val_fieldX (w : Word) : (fieldX w).val = w.toNat / 256 % 16 := by
  change (w.extractLsb' 8 4).toNat = _
  simp only [BitVec.extractLsb'_toNat, Nat.shiftRight_eq_div_pow, Nat.reducePow]

theorem val_fieldY (w : Word) : (fieldY w).val = w.toNat / 16 % 16 := by
  change (w.extractLsb' 4 4).toNat = _
  simp only [BitVec.extractLsb'_toNat, Nat.shiftRight_eq_div_pow, Nat.reducePow]

theorem toNat_fieldN (w : Word) : (fieldN w).toNat = w.toNat % 16 := by
  simp [fieldN]

theorem toNat_fieldNN (w : Word) : (fieldNN w).toNat = w.toNat % 256 := by
  simp [fieldNN]

theorem toNat_fieldNNN (w : Word) : (fieldNNN w).toNat = w.toNat % 4096 := by
  simp [fieldNNN]

theorem toNat_highByte (w : Word) : (highByte w).toNat = w.toNat / 256 := by
  have := w.isLt
  simp only [highByte, BitVec.extractLsb'_toNat, Nat.shiftRight_eq_div_pow]
  omega

theorem toNat_lowByte (w : Word) : (lowByte w).toNat = w.toNat % 256 := by
  simp [lowByte]

/-! ## The forms of R53 as numbers -/

/-- Concatenation as a number: the low part of `n` bits added to the high part moved up. -/
theorem toNat_concat {m n : Nat} (a : BitVec m) (b : BitVec n) : (a ++ b).toNat = a.toNat * 2 ^ n + b.toNat := by
  rw [BitVec.toNat_append, ← Nat.shiftLeft_add_eq_or_of_lt b.isLt, Nat.shiftLeft_eq]

theorem toNat_formA (g : Nibble) (nnn : Addr12) : (formA g nnn).toNat = g.toNat * 4096 + nnn.toNat :=
  toNat_concat g nnn

theorem toNat_formRI (g : Nibble) (x : Reg) (nn : Byte) :
    (formRI g x nn).toNat = (g.toNat * 16 + x.val) * 256 + nn.toNat := by
  have h := toNat_concat (g ++ BitVec.ofFin (w := 4) x) nn
  rw [toNat_concat g] at h
  exact h

theorem toNat_formRRN (g : Nibble) (x y : Reg) (n : Nibble) :
    (formRRN g x y n).toNat = ((g.toNat * 16 + x.val) * 16 + y.val) * 16 + n.toNat := by
  have h := toNat_concat ((g ++ BitVec.ofFin (w := 4) x) ++ BitVec.ofFin (w := 4) y) n
  rw [toNat_concat (g ++ _), toNat_concat g] at h
  exact h

/-- The word of two bytes, as a number: `high * 256 + low` (20_memory.md R33). -/
theorem toNat_wordOfBytes (high low : Byte) : (wordOfBytes high low).toNat = high.toNat * 256 + low.toNat :=
  toNat_concat high low

/-! ## Fields of the forms of R53 -/

@[simp] theorem fieldG_formA (g : Nibble) (nnn : Addr12) : fieldG (formA g nnn) = g := by
  apply BitVec.eq_of_toNat_eq
  rw [toNat_fieldG, toNat_formA]
  omega

@[simp] theorem fieldNNN_formA (g : Nibble) (nnn : Addr12) : fieldNNN (formA g nnn) = nnn := by
  apply BitVec.eq_of_toNat_eq
  rw [toNat_fieldNNN, toNat_formA]
  omega

@[simp] theorem fieldG_formRI (g : Nibble) (x : Reg) (nn : Byte) : fieldG (formRI g x nn) = g := by
  apply BitVec.eq_of_toNat_eq
  rw [toNat_fieldG, toNat_formRI]
  omega

@[simp] theorem fieldX_formRI (g : Nibble) (x : Reg) (nn : Byte) : fieldX (formRI g x nn) = x := by
  apply Fin.ext
  rw [val_fieldX, toNat_formRI]
  omega

@[simp] theorem fieldNN_formRI (g : Nibble) (x : Reg) (nn : Byte) : fieldNN (formRI g x nn) = nn := by
  apply BitVec.eq_of_toNat_eq
  rw [toNat_fieldNN, toNat_formRI]
  omega

@[simp] theorem fieldG_formRRN (g : Nibble) (x y : Reg) (n : Nibble) : fieldG (formRRN g x y n) = g := by
  apply BitVec.eq_of_toNat_eq
  rw [toNat_fieldG, toNat_formRRN]
  omega

@[simp] theorem fieldX_formRRN (g : Nibble) (x y : Reg) (n : Nibble) : fieldX (formRRN g x y n) = x := by
  apply Fin.ext
  rw [val_fieldX, toNat_formRRN]
  omega

@[simp] theorem fieldY_formRRN (g : Nibble) (x y : Reg) (n : Nibble) : fieldY (formRRN g x y n) = y := by
  apply Fin.ext
  rw [val_fieldY, toNat_formRRN]
  omega

@[simp] theorem fieldN_formRRN (g : Nibble) (x y : Reg) (n : Nibble) : fieldN (formRRN g x y n) = n := by
  apply BitVec.eq_of_toNat_eq
  rw [toNat_fieldN, toNat_formRRN]
  omega

/-! ## Fields under the masks of R55 -/

theorem fieldG_and_F000 (w : Word) : fieldG (w &&& 0xF000#16) = fieldG w := by
  ext i hi
  simp only [fieldG, BitVec.getElem_extractLsb', BitVec.getLsbD_and]
  interval_cases i <;> simp

theorem fieldG_and_F00F (w : Word) : fieldG (w &&& 0xF00F#16) = fieldG w := by
  ext i hi
  simp only [fieldG, BitVec.getElem_extractLsb', BitVec.getLsbD_and]
  interval_cases i <;> simp

theorem fieldG_and_F0FF (w : Word) : fieldG (w &&& 0xF0FF#16) = fieldG w := by
  ext i hi
  simp only [fieldG, BitVec.getElem_extractLsb', BitVec.getLsbD_and]
  interval_cases i <;> simp

theorem fieldN_and_F00F (w : Word) : fieldN (w &&& 0xF00F#16) = fieldN w := by
  ext i hi
  simp only [fieldN, BitVec.getElem_extractLsb', BitVec.getLsbD_and]
  interval_cases i <;> simp

theorem fieldNN_and_F0FF (w : Word) : fieldNN (w &&& 0xF0FF#16) = fieldNN w := by
  ext i hi
  simp only [fieldNN, BitVec.getElem_extractLsb', BitVec.getLsbD_and]
  interval_cases i <;> simp

/-- A word selected under the group mask has the row's group. -/
theorem fieldG_of_mask_F000 {w v : Word} (h : w &&& 0xF000#16 = v) : fieldG w = fieldG v := by
  rw [← fieldG_and_F000 w, h]

/-- A word selected under the group-and-low-nibble mask has the row's group and low nibble. -/
theorem fieldGN_of_mask_F00F {w v : Word} (h : w &&& 0xF00F#16 = v) :
    fieldG w = fieldG v ∧ fieldN w = fieldN v := by
  rw [← fieldG_and_F00F w, ← fieldN_and_F00F w, h]
  exact ⟨rfl, rfl⟩

/-- A word selected under the group-and-low-byte mask has the row's group and low byte. -/
theorem fieldGNN_of_mask_F0FF {w v : Word} (h : w &&& 0xF0FF#16 = v) :
    fieldG w = fieldG v ∧ fieldNN w = fieldNN v := by
  rw [← fieldG_and_F0FF w, ← fieldNN_and_F0FF w, h]
  exact ⟨rfl, rfl⟩

/-! ## A word from its fields (R52) -/

theorem formA_fields (w : Word) : formA (fieldG w) (fieldNNN w) = w := by
  apply BitVec.eq_of_toNat_eq
  rw [toNat_formA, toNat_fieldG, toNat_fieldNNN]
  omega

theorem formRI_fields (w : Word) : formRI (fieldG w) (fieldX w) (fieldNN w) = w := by
  apply BitVec.eq_of_toNat_eq
  rw [toNat_formRI, toNat_fieldG, val_fieldX, toNat_fieldNN]
  omega

theorem formRRN_fields (w : Word) : formRRN (fieldG w) (fieldX w) (fieldY w) (fieldN w) = w := by
  apply BitVec.eq_of_toNat_eq
  rw [toNat_formRRN, toNat_fieldG, val_fieldX, val_fieldY, toNat_fieldN]
  omega

/-- The two bytes of a word, read back as a fetch reads them (20_memory.md R33). -/
@[simp] theorem wordOfBytes_high_low (w : Word) : wordOfBytes (highByte w) (lowByte w) = w := by
  apply BitVec.eq_of_toNat_eq
  rw [toNat_wordOfBytes, toNat_highByte, toNat_lowByte]
  omega

/-! ## What a mask keeps: the word with every other field zero -/

theorem and_F000 (w : Word) : w &&& 0xF000#16 = formA (fieldG w) 0#12 := by
  rw [← formA_fields (w &&& 0xF000#16), fieldG_and_F000]
  congr 1
  ext i hi
  simp only [fieldNNN, BitVec.getElem_extractLsb', BitVec.getLsbD_and]
  interval_cases i <;> simp

theorem fieldX_eq_zero {w : Word} (h : w.extractLsb' 8 4 = 0#4) : fieldX w = 0 := by
  simp [fieldX, h]

theorem fieldY_eq_zero {w : Word} (h : w.extractLsb' 4 4 = 0#4) : fieldY w = 0 := by
  simp [fieldY, h]

theorem and_F0FF (w : Word) : w &&& 0xF0FF#16 = formRI (fieldG w) 0 (fieldNN w) := by
  rw [← formRI_fields (w &&& 0xF0FF#16), fieldG_and_F0FF, fieldNN_and_F0FF, fieldX_eq_zero]
  ext i hi
  simp only [BitVec.getElem_extractLsb', BitVec.getLsbD_and]
  interval_cases i <;> simp

theorem and_F00F (w : Word) : w &&& 0xF00F#16 = formRRN (fieldG w) 0 0 (fieldN w) := by
  rw [← formRRN_fields (w &&& 0xF00F#16), fieldG_and_F00F, fieldN_and_F00F, fieldX_eq_zero, fieldY_eq_zero]
  all_goals
    ext i hi
    simp only [BitVec.getElem_extractLsb', BitVec.getLsbD_and]
    interval_cases i <;> simp

theorem and_FFFF (w : Word) : w &&& 0xFFFF#16 = w := by
  ext i hi
  interval_cases i <;> simp

/-! ## The decoder's error -/

/-- A word the decoder rejects is rejected by its own name (R57). -/
theorem decodeWord_error {w : Word} {e : DecodeError} (h : decodeWord w = .error e) : e = .unrecognised w := by
  unfold decodeWord decodeGroup0 decodeGroup8 decodeGroupE decodeGroupF at h
  repeat' (split at h)
  all_goals first
    | (cases h; rfl)
    | cases h

end Sys2Proof
end

