-- ==== Sys2Proof/Laws/Memory.lean ====
section
/-! SUPPORT. Memory: every operation keeps the canonical form, a read after a write gives the byte written, and a
write leaves every other address alone (20_memory.md R41, R45). -/

namespace Sys2Proof.Machine

theorem wfFrom_cons {lo k : Nat} {b : Byte} {m : Memory} :
    Memory.wfFrom lo ((k, b) :: m) = true ↔
      lo ≤ k ∧ k < Config.memSize ∧ b ≠ unlisted k ∧ Memory.wfFrom (k + 1) m = true := by
  simp [Memory.wfFrom, and_assoc]

theorem wfFrom_mono {lo lo' : Nat} (h : lo' ≤ lo) {m : Memory} (hm : m.wfFrom lo = true) : m.wfFrom lo' = true := by
  cases m with
  | nil => rfl
  | cons c m =>
    obtain ⟨k, b⟩ := c
    rw [wfFrom_cons] at hm ⊢
    exact ⟨h.trans hm.1, hm.2⟩

/-- Below its first possible address nothing is listed. -/
theorem read_below {m : Memory} {lo a : Nat} (hm : m.wfFrom lo = true) (h : a < lo) : m.read a = unlisted a := by
  induction m generalizing lo with
  | nil => rfl
  | cons c m ih =>
    obtain ⟨k, b⟩ := c
    rw [wfFrom_cons] at hm
    rw [Memory.read, if_neg (by omega)]
    exact ih hm.2.2.2 (by omega)

/-- Storing a byte keeps the canonical form. -/
theorem wfFrom_write {m : Memory} {lo a : Nat} (b : Byte) (hm : m.wfFrom lo = true) (hlo : lo ≤ a)
    (ha : a < Config.memSize) : (m.write a b).wfFrom lo = true := by
  induction m generalizing lo with
  | nil =>
    rw [Memory.write]
    split
    · rfl
    · rw [wfFrom_cons]
      exact ⟨hlo, ha, by assumption, rfl⟩
  | cons c m ih =>
    obtain ⟨k, c⟩ := c
    have h := wfFrom_cons.mp hm
    rw [Memory.write]
    split
    · split
      · exact hm
      · rw [wfFrom_cons]
        exact ⟨hlo, ha, by assumption, wfFrom_cons.mpr ⟨by omega, h.2⟩⟩
    · split
      · subst_vars
        split
        · exact wfFrom_mono (by omega) h.2.2.2
        · rw [wfFrom_cons]
          exact ⟨hlo, ha, by assumption, h.2.2.2⟩
      · rw [wfFrom_cons]
        exact ⟨h.1, h.2.1, h.2.2.1, ih h.2.2.2 (by omega)⟩

theorem read_write_from {m : Memory} {lo : Nat} (hm : m.wfFrom lo = true) (a q : Nat) (b : Byte) :
    (m.write a b).read q = if q = a then b else m.read q := by
  induction m generalizing lo with
  | nil =>
    rw [Memory.write]
    by_cases hq : q = a
    · subst hq
      split
      · simp_all [Memory.read]
      · simp [Memory.read]
    · split
      · simp
      · simp [Memory.read, Ne.symm hq]
  | cons c m ih =>
    obtain ⟨k, c⟩ := c
    have h := wfFrom_cons.mp hm
    have hb : k > a → Memory.read ((k, c) :: m) a = unlisted a := fun hk =>
      read_below (lo := k) (wfFrom_cons.mpr ⟨le_rfl, h.2⟩) hk
    rw [Memory.write]
    by_cases hq : q = a
    · subst hq
      simp only [if_true]
      split
      · rename_i hk
        split
        · rename_i e
          rw [hb hk, e]
        · simp [Memory.read]
      · split
        · rename_i e
          split
          · rename_i e'
            rw [read_below h.2.2.2 (by omega), e']
          · simp [Memory.read]
        · rename_i e
          rw [Memory.read, if_neg (Ne.symm e), ih h.2.2.2, if_pos rfl]
    · simp only [hq, if_false]
      split
      · split
        · rfl
        · rw [Memory.read, if_neg (Ne.symm hq)]
      · split
        · rename_i e
          have hk : ¬ k = q := by omega
          split
          · rw [Memory.read, if_neg hk]
          · rw [Memory.read, Memory.read, if_neg (Ne.symm hq), if_neg hk]
        · rw [Memory.read, Memory.read, ih h.2.2.2, if_neg hq]

/-- A read after a write: the byte written at its address, the old byte everywhere else (R45). -/
theorem read_write {m : Memory} (hm : m.wf = true) (a q : Nat) (b : Byte) :
    (m.write a b).read q = if q = a then b else m.read q :=
  read_write_from hm a q b

/-- Storing a byte inside the address space keeps the canonical form. -/
theorem wf_write {m : Memory} (hm : m.wf = true) {a : Nat} (b : Byte) (ha : a < Config.memSize) :
    (m.write a b).wf = true :=
  wfFrom_write b hm (Nat.zero_le a) ha

/-- Storing a list of bytes inside the address space keeps the canonical form. -/
theorem wf_writeBytes {m : Memory} (hm : m.wf = true) (a : Nat) (bs : List Byte)
    (h : a + bs.length ≤ Config.memSize) : (m.writeBytes a bs).wf = true := by
  induction bs generalizing m a with
  | nil => exact hm
  | cons b bs ih =>
    rw [List.length_cons] at h
    exact ih (wf_write hm b (by omega)) (a + 1) (by omega)

/-- A read after a block store: the bytes stored from `a` up, the old byte everywhere else (R34, R45). -/
theorem read_writeBytes {m : Memory} (hm : m.wf = true) (a : Nat) (bs : List Byte)
    (h : a + bs.length ≤ Config.memSize) (q : Nat) :
    (m.writeBytes a bs).read q = if a ≤ q then (bs[q - a]?).getD (m.read q) else m.read q := by
  induction bs generalizing m a with
  | nil => simp [Memory.writeBytes]
  | cons b bs ih =>
    rw [List.length_cons] at h
    rw [Memory.writeBytes, ih (wf_write hm b (by omega)) (a + 1) (by omega), read_write hm]
    by_cases h1 : a + 1 ≤ q
    · have e : q - a = (q - (a + 1)) + 1 := by omega
      rw [if_pos h1, if_neg (show ¬ q = a by omega), if_pos (by omega), e, List.getElem?_cons_succ]
    · rw [if_neg h1]
      by_cases h2 : q = a
      · simp [h2]
      · rw [if_neg h2, if_neg (by omega)]

@[simp] theorem length_readBytes (m : Memory) (a n : Nat) : (m.readBytes a n).length = n := by
  induction n generalizing a with
  | zero => rfl
  | succ n ih => simp [Memory.readBytes, ih]

/-- The bytes of a block read, by their place: the `k`-th stands at `a + k` (R34). -/
theorem getElem?_readBytes (m : Memory) (a : Nat) {n k : Nat} (h : k < n) :
    (m.readBytes a n)[k]? = some (m.read (a + k)) := by
  induction n generalizing a k with
  | zero => omega
  | succ n ih =>
    cases k with
    | zero => simp [Memory.readBytes]
    | succ k =>
      rw [Memory.readBytes, List.getElem?_cons_succ, ih (a + 1) (by omega)]
      congr 2
      omega

/-- Power-on memory is in canonical form: nothing is listed. -/
theorem wf_nil : Memory.wf [] = true := rfl

theorem reset_memory_wf : State.reset.memory.wf = true := rfl

/-- Outside the address space nothing is listed. -/
theorem read_outside {m : Memory} (hm : m.wf = true) {a : Nat} (ha : Config.memSize ≤ a) : m.read a = unlisted a := by
  have key : ∀ (m : Memory) (lo : Nat), m.wfFrom lo = true → m.read a = unlisted a := by
    intro m
    induction m with
    | nil => intro _ _; rfl
    | cons c m ih =>
      intro lo h
      obtain ⟨k, b⟩ := c
      rw [wfFrom_cons] at h
      rw [Memory.read, if_neg (by omega)]
      exact ih _ h.2.2.2
  exact key m 0 hm

end Sys2Proof.Machine
end

