-- ==== Sys2Proof/Laws/State.lean ====
section
/-! SUPPORT. One lemma per field per update of the state: what each named operation leaves in each field. No proof
needs to unfold a record update. After them, the registers as they are read. -/

namespace Sys2Proof.Machine

variable (s : State)

/-! ## advance -/

@[simp] theorem advance_v : s.advance.v = s.v := rfl
@[simp] theorem advance_I : s.advance.I = s.I := rfl
@[simp] theorem advance_pc : s.advance.pc = s.pc + 2 := rfl
@[simp] theorem advance_stack : s.advance.stack = s.stack := rfl
@[simp] theorem advance_dt : s.advance.dt = s.dt := rfl
@[simp] theorem advance_st : s.advance.st = s.st := rfl
@[simp] theorem advance_memory : s.advance.memory = s.memory := rfl
@[simp] theorem advance_status : s.advance.status = s.status := rfl
@[simp] theorem advance_faultCause : s.advance.faultCause = s.faultCause := rfl
@[simp] theorem advance_faultInfo : s.advance.faultInfo = s.faultInfo := rfl
@[simp] theorem advance_draws : s.advance.draws = s.draws := rfl
@[simp] theorem advance_outputs : s.advance.outputs = s.outputs := rfl
@[simp] theorem advance_schedule : s.advance.schedule = s.schedule := rfl

/-! ## jump -/

@[simp] theorem jump_v (a : Word) : (s.jump a).v = s.v := rfl
@[simp] theorem jump_I (a : Word) : (s.jump a).I = s.I := rfl
@[simp] theorem jump_pc (a : Word) : (s.jump a).pc = a := rfl
@[simp] theorem jump_stack (a : Word) : (s.jump a).stack = s.stack := rfl
@[simp] theorem jump_dt (a : Word) : (s.jump a).dt = s.dt := rfl
@[simp] theorem jump_st (a : Word) : (s.jump a).st = s.st := rfl
@[simp] theorem jump_memory (a : Word) : (s.jump a).memory = s.memory := rfl
@[simp] theorem jump_status (a : Word) : (s.jump a).status = s.status := rfl
@[simp] theorem jump_faultCause (a : Word) : (s.jump a).faultCause = s.faultCause := rfl
@[simp] theorem jump_faultInfo (a : Word) : (s.jump a).faultInfo = s.faultInfo := rfl
@[simp] theorem jump_draws (a : Word) : (s.jump a).draws = s.draws := rfl
@[simp] theorem jump_outputs (a : Word) : (s.jump a).outputs = s.outputs := rfl
@[simp] theorem jump_schedule (a : Word) : (s.jump a).schedule = s.schedule := rfl

/-! ## skipIf -/

@[simp] theorem skipIf_v (c : Bool) : (s.skipIf c).v = s.v := by cases c <;> rfl
@[simp] theorem skipIf_I (c : Bool) : (s.skipIf c).I = s.I := by cases c <;> rfl
@[simp] theorem skipIf_pc (c : Bool) : (s.skipIf c).pc = if c then s.pc + 2 else s.pc := by cases c <;> rfl
@[simp] theorem skipIf_stack (c : Bool) : (s.skipIf c).stack = s.stack := by cases c <;> rfl
@[simp] theorem skipIf_dt (c : Bool) : (s.skipIf c).dt = s.dt := by cases c <;> rfl
@[simp] theorem skipIf_st (c : Bool) : (s.skipIf c).st = s.st := by cases c <;> rfl
@[simp] theorem skipIf_memory (c : Bool) : (s.skipIf c).memory = s.memory := by cases c <;> rfl
@[simp] theorem skipIf_status (c : Bool) : (s.skipIf c).status = s.status := by cases c <;> rfl
@[simp] theorem skipIf_faultCause (c : Bool) : (s.skipIf c).faultCause = s.faultCause := by cases c <;> rfl
@[simp] theorem skipIf_faultInfo (c : Bool) : (s.skipIf c).faultInfo = s.faultInfo := by cases c <;> rfl
@[simp] theorem skipIf_draws (c : Bool) : (s.skipIf c).draws = s.draws := by cases c <;> rfl
@[simp] theorem skipIf_outputs (c : Bool) : (s.skipIf c).outputs = s.outputs := by cases c <;> rfl
@[simp] theorem skipIf_schedule (c : Bool) : (s.skipIf c).schedule = s.schedule := by cases c <;> rfl

/-! ## push -/

@[simp] theorem push_v (a : Word) : (s.push a).v = s.v := rfl
@[simp] theorem push_I (a : Word) : (s.push a).I = s.I := rfl
@[simp] theorem push_pc (a : Word) : (s.push a).pc = s.pc := rfl
@[simp] theorem push_stack (a : Word) : (s.push a).stack = s.stack ++ [a] := rfl
@[simp] theorem push_dt (a : Word) : (s.push a).dt = s.dt := rfl
@[simp] theorem push_st (a : Word) : (s.push a).st = s.st := rfl
@[simp] theorem push_memory (a : Word) : (s.push a).memory = s.memory := rfl
@[simp] theorem push_status (a : Word) : (s.push a).status = s.status := rfl
@[simp] theorem push_faultCause (a : Word) : (s.push a).faultCause = s.faultCause := rfl
@[simp] theorem push_faultInfo (a : Word) : (s.push a).faultInfo = s.faultInfo := rfl
@[simp] theorem push_draws (a : Word) : (s.push a).draws = s.draws := rfl
@[simp] theorem push_outputs (a : Word) : (s.push a).outputs = s.outputs := rfl
@[simp] theorem push_schedule (a : Word) : (s.push a).schedule = s.schedule := rfl

/-! ## popped -/

@[simp] theorem popped_v : s.popped.v = s.v := rfl
@[simp] theorem popped_I : s.popped.I = s.I := rfl
@[simp] theorem popped_pc : s.popped.pc = s.pc := rfl
@[simp] theorem popped_stack : s.popped.stack = s.stack.dropLast := rfl
@[simp] theorem popped_dt : s.popped.dt = s.dt := rfl
@[simp] theorem popped_st : s.popped.st = s.st := rfl
@[simp] theorem popped_memory : s.popped.memory = s.memory := rfl
@[simp] theorem popped_status : s.popped.status = s.status := rfl
@[simp] theorem popped_faultCause : s.popped.faultCause = s.faultCause := rfl
@[simp] theorem popped_faultInfo : s.popped.faultInfo = s.faultInfo := rfl
@[simp] theorem popped_draws : s.popped.draws = s.draws := rfl
@[simp] theorem popped_outputs : s.popped.outputs = s.outputs := rfl
@[simp] theorem popped_schedule : s.popped.schedule = s.schedule := rfl

/-! ## issue -/

@[simp] theorem issue_v (t : Transaction) : (s.issue t).v = s.v := rfl
@[simp] theorem issue_I (t : Transaction) : (s.issue t).I = s.I := rfl
@[simp] theorem issue_pc (t : Transaction) : (s.issue t).pc = s.pc := rfl
@[simp] theorem issue_stack (t : Transaction) : (s.issue t).stack = s.stack := rfl
@[simp] theorem issue_dt (t : Transaction) : (s.issue t).dt = s.dt := rfl
@[simp] theorem issue_st (t : Transaction) : (s.issue t).st = s.st := rfl
@[simp] theorem issue_memory (t : Transaction) : (s.issue t).memory = s.memory := rfl
@[simp] theorem issue_status (t : Transaction) : (s.issue t).status = s.status := rfl
@[simp] theorem issue_faultCause (t : Transaction) : (s.issue t).faultCause = s.faultCause := rfl
@[simp] theorem issue_faultInfo (t : Transaction) : (s.issue t).faultInfo = s.faultInfo := rfl
@[simp] theorem issue_draws (t : Transaction) : (s.issue t).draws = s.draws := rfl
@[simp] theorem issue_outputs (t : Transaction) : (s.issue t).outputs = s.outputs ++ [t] := rfl
@[simp] theorem issue_schedule (t : Transaction) : (s.issue t).schedule = s.schedule := rfl

/-! ## drawn -/

@[simp] theorem drawn_v : s.drawn.v = s.v := rfl
@[simp] theorem drawn_I : s.drawn.I = s.I := rfl
@[simp] theorem drawn_pc : s.drawn.pc = s.pc := rfl
@[simp] theorem drawn_stack : s.drawn.stack = s.stack := rfl
@[simp] theorem drawn_dt : s.drawn.dt = s.dt := rfl
@[simp] theorem drawn_st : s.drawn.st = s.st := rfl
@[simp] theorem drawn_memory : s.drawn.memory = s.memory := rfl
@[simp] theorem drawn_status : s.drawn.status = s.status := rfl
@[simp] theorem drawn_faultCause : s.drawn.faultCause = s.faultCause := rfl
@[simp] theorem drawn_faultInfo : s.drawn.faultInfo = s.faultInfo := rfl
@[simp] theorem drawn_draws : s.drawn.draws = s.draws + 1 := rfl
@[simp] theorem drawn_outputs : s.drawn.outputs = s.outputs := rfl
@[simp] theorem drawn_schedule : s.drawn.schedule = s.schedule := rfl

/-! ## setReg -/

@[simp] theorem setReg_v (r : Reg) (b : Byte) : (s.setReg r b).v = s.v.set r.val b r.isLt := rfl
@[simp] theorem setReg_I (r : Reg) (b : Byte) : (s.setReg r b).I = s.I := rfl
@[simp] theorem setReg_pc (r : Reg) (b : Byte) : (s.setReg r b).pc = s.pc := rfl
@[simp] theorem setReg_stack (r : Reg) (b : Byte) : (s.setReg r b).stack = s.stack := rfl
@[simp] theorem setReg_dt (r : Reg) (b : Byte) : (s.setReg r b).dt = s.dt := rfl
@[simp] theorem setReg_st (r : Reg) (b : Byte) : (s.setReg r b).st = s.st := rfl
@[simp] theorem setReg_memory (r : Reg) (b : Byte) : (s.setReg r b).memory = s.memory := rfl
@[simp] theorem setReg_status (r : Reg) (b : Byte) : (s.setReg r b).status = s.status := rfl
@[simp] theorem setReg_faultCause (r : Reg) (b : Byte) : (s.setReg r b).faultCause = s.faultCause := rfl
@[simp] theorem setReg_faultInfo (r : Reg) (b : Byte) : (s.setReg r b).faultInfo = s.faultInfo := rfl
@[simp] theorem setReg_draws (r : Reg) (b : Byte) : (s.setReg r b).draws = s.draws := rfl
@[simp] theorem setReg_outputs (r : Reg) (b : Byte) : (s.setReg r b).outputs = s.outputs := rfl
@[simp] theorem setReg_schedule (r : Reg) (b : Byte) : (s.setReg r b).schedule = s.schedule := rfl

/-! ## setRegFlag -/

@[simp] theorem setRegFlag_I (r : Reg) (b : Byte) (f : Bool) : (s.setRegFlag r b f).I = s.I := rfl
@[simp] theorem setRegFlag_pc (r : Reg) (b : Byte) (f : Bool) : (s.setRegFlag r b f).pc = s.pc := rfl
@[simp] theorem setRegFlag_stack (r : Reg) (b : Byte) (f : Bool) : (s.setRegFlag r b f).stack = s.stack := rfl
@[simp] theorem setRegFlag_dt (r : Reg) (b : Byte) (f : Bool) : (s.setRegFlag r b f).dt = s.dt := rfl
@[simp] theorem setRegFlag_st (r : Reg) (b : Byte) (f : Bool) : (s.setRegFlag r b f).st = s.st := rfl
@[simp] theorem setRegFlag_memory (r : Reg) (b : Byte) (f : Bool) : (s.setRegFlag r b f).memory = s.memory := rfl
@[simp] theorem setRegFlag_status (r : Reg) (b : Byte) (f : Bool) : (s.setRegFlag r b f).status = s.status := rfl
@[simp] theorem setRegFlag_faultCause (r : Reg) (b : Byte) (f : Bool) : (s.setRegFlag r b f).faultCause = s.faultCause := rfl
@[simp] theorem setRegFlag_faultInfo (r : Reg) (b : Byte) (f : Bool) : (s.setRegFlag r b f).faultInfo = s.faultInfo := rfl
@[simp] theorem setRegFlag_draws (r : Reg) (b : Byte) (f : Bool) : (s.setRegFlag r b f).draws = s.draws := rfl
@[simp] theorem setRegFlag_outputs (r : Reg) (b : Byte) (f : Bool) : (s.setRegFlag r b f).outputs = s.outputs := rfl
@[simp] theorem setRegFlag_schedule (r : Reg) (b : Byte) (f : Bool) : (s.setRegFlag r b f).schedule = s.schedule := rfl

/-! ## setI -/

@[simp] theorem setI_v (a : Word) : (s.setI a).v = s.v := rfl
@[simp] theorem setI_I (a : Word) : (s.setI a).I = a := rfl
@[simp] theorem setI_pc (a : Word) : (s.setI a).pc = s.pc := rfl
@[simp] theorem setI_stack (a : Word) : (s.setI a).stack = s.stack := rfl
@[simp] theorem setI_dt (a : Word) : (s.setI a).dt = s.dt := rfl
@[simp] theorem setI_st (a : Word) : (s.setI a).st = s.st := rfl
@[simp] theorem setI_memory (a : Word) : (s.setI a).memory = s.memory := rfl
@[simp] theorem setI_status (a : Word) : (s.setI a).status = s.status := rfl
@[simp] theorem setI_faultCause (a : Word) : (s.setI a).faultCause = s.faultCause := rfl
@[simp] theorem setI_faultInfo (a : Word) : (s.setI a).faultInfo = s.faultInfo := rfl
@[simp] theorem setI_draws (a : Word) : (s.setI a).draws = s.draws := rfl
@[simp] theorem setI_outputs (a : Word) : (s.setI a).outputs = s.outputs := rfl
@[simp] theorem setI_schedule (a : Word) : (s.setI a).schedule = s.schedule := rfl

/-! ## loadRegs -/

@[simp] theorem loadRegs_I (x : Reg) : (s.loadRegs x).I = s.I := rfl
@[simp] theorem loadRegs_pc (x : Reg) : (s.loadRegs x).pc = s.pc := rfl
@[simp] theorem loadRegs_stack (x : Reg) : (s.loadRegs x).stack = s.stack := rfl
@[simp] theorem loadRegs_dt (x : Reg) : (s.loadRegs x).dt = s.dt := rfl
@[simp] theorem loadRegs_st (x : Reg) : (s.loadRegs x).st = s.st := rfl
@[simp] theorem loadRegs_memory (x : Reg) : (s.loadRegs x).memory = s.memory := rfl
@[simp] theorem loadRegs_status (x : Reg) : (s.loadRegs x).status = s.status := rfl
@[simp] theorem loadRegs_faultCause (x : Reg) : (s.loadRegs x).faultCause = s.faultCause := rfl
@[simp] theorem loadRegs_faultInfo (x : Reg) : (s.loadRegs x).faultInfo = s.faultInfo := rfl
@[simp] theorem loadRegs_draws (x : Reg) : (s.loadRegs x).draws = s.draws := rfl
@[simp] theorem loadRegs_outputs (x : Reg) : (s.loadRegs x).outputs = s.outputs := rfl
@[simp] theorem loadRegs_schedule (x : Reg) : (s.loadRegs x).schedule = s.schedule := rfl

/-! ## clearFault -/

@[simp] theorem clearFault_v : (clearFault s).v = s.v := rfl
@[simp] theorem clearFault_I : (clearFault s).I = s.I := rfl
@[simp] theorem clearFault_pc : (clearFault s).pc = s.pc := rfl
@[simp] theorem clearFault_stack : (clearFault s).stack = s.stack := rfl
@[simp] theorem clearFault_dt : (clearFault s).dt = s.dt := rfl
@[simp] theorem clearFault_st : (clearFault s).st = s.st := rfl
@[simp] theorem clearFault_memory : (clearFault s).memory = s.memory := rfl
@[simp] theorem clearFault_status : (clearFault s).status = .running := rfl
@[simp] theorem clearFault_faultCause : (clearFault s).faultCause = 0 := rfl
@[simp] theorem clearFault_faultInfo : (clearFault s).faultInfo = 0 := rfl
@[simp] theorem clearFault_draws : (clearFault s).draws = s.draws := rfl
@[simp] theorem clearFault_outputs : (clearFault s).outputs = s.outputs := rfl
@[simp] theorem clearFault_schedule : (clearFault s).schedule = s.schedule := rfl

/-! ## initRegisters -/

@[simp] theorem initRegisters_v : (initRegisters s).v = Vector.replicate 16 0 := rfl
@[simp] theorem initRegisters_I : (initRegisters s).I = 0 := rfl
@[simp] theorem initRegisters_pc : (initRegisters s).pc = 512 := rfl
@[simp] theorem initRegisters_stack : (initRegisters s).stack = [] := rfl
@[simp] theorem initRegisters_dt : (initRegisters s).dt = 0 := rfl
@[simp] theorem initRegisters_st : (initRegisters s).st = 0 := rfl
@[simp] theorem initRegisters_memory : (initRegisters s).memory = s.memory := rfl
@[simp] theorem initRegisters_status : (initRegisters s).status = .running := rfl
@[simp] theorem initRegisters_faultCause : (initRegisters s).faultCause = 0 := rfl
@[simp] theorem initRegisters_faultInfo : (initRegisters s).faultInfo = 0 := rfl
@[simp] theorem initRegisters_draws : (initRegisters s).draws = s.draws := rfl
@[simp] theorem initRegisters_outputs : (initRegisters s).outputs = s.outputs := rfl
@[simp] theorem initRegisters_schedule : (initRegisters s).schedule = s.schedule := rfl

/-! ## powerOn -/

@[simp] theorem powerOn_v : (powerOn s).v = Vector.replicate 16 0 := rfl
@[simp] theorem powerOn_I : (powerOn s).I = 0 := rfl
@[simp] theorem powerOn_pc : (powerOn s).pc = 512 := rfl
@[simp] theorem powerOn_stack : (powerOn s).stack = [] := rfl
@[simp] theorem powerOn_dt : (powerOn s).dt = 0 := rfl
@[simp] theorem powerOn_st : (powerOn s).st = 0 := rfl
@[simp] theorem powerOn_memory : (powerOn s).memory = [] := rfl
@[simp] theorem powerOn_status : (powerOn s).status = .running := rfl
@[simp] theorem powerOn_faultCause : (powerOn s).faultCause = 0 := rfl
@[simp] theorem powerOn_faultInfo : (powerOn s).faultInfo = 0 := rfl
@[simp] theorem powerOn_draws : (powerOn s).draws = s.draws := rfl
@[simp] theorem powerOn_outputs : (powerOn s).outputs = s.outputs := rfl
@[simp] theorem powerOn_schedule : (powerOn s).schedule = s.schedule := rfl

/-! ## tick -/

@[simp] theorem tick_v : (tick s).v = s.v := rfl
@[simp] theorem tick_I : (tick s).I = s.I := rfl
@[simp] theorem tick_pc : (tick s).pc = s.pc := rfl
@[simp] theorem tick_stack : (tick s).stack = s.stack := rfl
@[simp] theorem tick_dt : (tick s).dt = countDown s.dt := rfl
@[simp] theorem tick_st : (tick s).st = countDown s.st := rfl
@[simp] theorem tick_memory : (tick s).memory = s.memory := rfl
@[simp] theorem tick_status : (tick s).status = s.status := rfl
@[simp] theorem tick_faultCause : (tick s).faultCause = s.faultCause := rfl
@[simp] theorem tick_faultInfo : (tick s).faultInfo = s.faultInfo := rfl
@[simp] theorem tick_draws : (tick s).draws = s.draws := rfl
@[simp] theorem tick_outputs : (tick s).outputs = s.outputs := rfl
@[simp] theorem tick_schedule : (tick s).schedule = s.schedule := rfl

/-! ## Registers as they are read -/

/-- Reading a register just written, and every other register (R10). -/
@[simp] theorem reg_setReg (r q : Reg) (b : Byte) : (s.setReg r b).reg q = if q = r then b else s.reg q := by
  simp [State.reg, State.setReg, Vector.getElem_set, Fin.ext_iff, eq_comm]

/-- The flag is written last: VF reads as the flag whatever the destination (R101). -/
@[simp] theorem reg_setRegFlag (r q : Reg) (b : Byte) (f : Bool) :
    (s.setRegFlag r b f).reg q = if q = Reg.vf then flagByte f else if q = r then b else s.reg q := by
  simp [State.setRegFlag]

/-- A block load writes V0..VX and no other register (R115). -/
@[simp] theorem reg_loadRegs (x q : Reg) :
    (s.loadRegs x).reg q = if q ≤ x then s.memory.read (s.I.toNat + q.val) else s.reg q := by
  simp [State.reg, State.loadRegs]

@[simp] theorem advance_reg (r : Reg) : s.advance.reg r = s.reg r := rfl
@[simp] theorem jump_reg (a : Word) (r : Reg) : (s.jump a).reg r = s.reg r := rfl
@[simp] theorem skipIf_reg (c : Bool) (r : Reg) : (s.skipIf c).reg r = s.reg r := by cases c <;> rfl
@[simp] theorem push_reg (a : Word) (r : Reg) : (s.push a).reg r = s.reg r := rfl
@[simp] theorem popped_reg (r : Reg) : s.popped.reg r = s.reg r := rfl
@[simp] theorem issue_reg (t : Transaction) (r : Reg) : (s.issue t).reg r = s.reg r := rfl
@[simp] theorem drawn_reg (r : Reg) : s.drawn.reg r = s.reg r := rfl
@[simp] theorem setI_reg (a : Word) (r : Reg) : (s.setI a).reg r = s.reg r := rfl
@[simp] theorem clearFault_reg (r : Reg) : (clearFault s).reg r = s.reg r := rfl
@[simp] theorem tick_reg (r : Reg) : (tick s).reg r = s.reg r := rfl

/-- Every register reads 0 after `PowerOn`, `LoadProgram` and `Reset` (R24). -/
@[simp] theorem initRegisters_reg (r : Reg) : (initRegisters s).reg r = 0 := by
  simp [State.reg]

@[simp] theorem powerOn_reg (r : Reg) : (powerOn s).reg r = 0 := by
  simp [State.reg]

@[simp] theorem reset_reg (r : Reg) : State.reset.reg r = 0 := by
  simp [State.reg, State.reset]

/-- Two register files that read alike are equal. -/
theorem regs_ext {s t : State} (h : ∀ r, t.reg r = s.reg r) : t.v = s.v :=
  Vector.ext fun i hi => h ⟨i, hi⟩

end Sys2Proof.Machine
end

