-- ==== Sys2Proof/Laws/Ops.lean ====
section
/-! SUPPORT. For each shared operation, everything it can do, said once: later proofs cite these and do not unfold
the operations. -/

namespace Sys2Proof.Machine

variable {s t : State}

/-- One outcome is a next state in one way only. -/
theorem next_inj {a b : State} (h : (Host.Outcome.next a : Out) = .next b) : a = b := by
  injection h

/-- Taking a fault always answers a next state, the given state but for the status registers (R143). -/
theorem raise_eq (c : Fault) (info : Word) (s : State) :
    raise c info s = .next { s with status := .faulted, faultCause := c.code, faultInfo := info } := rfl

theorem raise_next {c : Fault} {info : Word} (h : raise c info s = .next t) :
    t = { s with status := .faulted, faultCause := c.code, faultInfo := info } := (next_inj h).symm

/-- Every cause has a code from 1 to 5 (R141). -/
theorem code_range (c : Fault) : 1 ≤ c.code.toNat ∧ c.code.toNat ≤ 5 := by
  cases c <;> decide

/-- A block store either stores every byte or raises MEM_RANGE (R46). -/
theorem storeAtIndex_cases {bytes : List Byte} (h : storeAtIndex bytes s = .next t) :
    (s.inRange bytes.length = true ∧ t = { s.advance with memory := s.memory.writeBytes s.I.toNat bytes }) ∨
    (s.inRange bytes.length = false ∧
      t = { s with status := .faulted, faultCause := 2, faultInfo := s.rangeInfo }) := by
  unfold storeAtIndex at h
  split at h
  · exact .inl ⟨‹_›, (next_inj h).symm⟩
  · exact .inr ⟨Bool.eq_false_iff.mpr ‹_›, raise_next h⟩

/-- A register load either loads every byte or raises MEM_RANGE (R46). -/
theorem execLoad_cases {x : Reg} (h : execLoad x s = .next t) :
    (s.inRange (x.val + 1) = true ∧ t = s.advance.loadRegs x) ∨
    (s.inRange (x.val + 1) = false ∧
      t = { s with status := .faulted, faultCause := 2, faultInfo := s.rangeInfo }) := by
  unfold execLoad at h
  split at h
  · exact .inl ⟨‹_›, (next_inj h).symm⟩
  · exact .inr ⟨Bool.eq_false_iff.mpr ‹_›, raise_next h⟩

/-- A return either pops or raises STACK_UNDERFLOW (R70). -/
theorem execRet_cases (h : execRet s = .next t) :
    (∃ a, s.stack.getLast? = some a ∧ t = s.popped.jump a) ∨
    (s.stack = [] ∧ t = { s with status := .faulted, faultCause := 3, faultInfo := 0 }) := by
  unfold execRet at h
  split at h
  · exact .inr ⟨List.getLast?_eq_none_iff.mp ‹_›, raise_next h⟩
  · exact .inl ⟨_, ‹_›, (next_inj h).symm⟩

/-- A call either pushes and jumps or raises STACK_OVERFLOW (R72). -/
theorem execCall_cases {nnn : Addr12} (h : execCall nnn s = .next t) :
    (s.stackFull = false ∧ t = (s.push (s.pc + 2)).jump (addrWord nnn)) ∨
    (s.stackFull = true ∧ t = { s with status := .faulted, faultCause := 4, faultInfo := 0 }) := by
  unfold execCall at h
  split at h
  · exact .inr ⟨‹_›, raise_next h⟩
  · exact .inl ⟨Bool.eq_false_iff.mpr ‹_›, (next_inj h).symm⟩

/-- A key skip either asks and moves on or raises KEY_RANGE (R133, R134). -/
theorem keySkipWith_cases {answers : BitVec 16} {wanted : Bool} {x : Reg}
    (h : keySkipWith answers wanted x s = .next t) :
    ((s.reg x).toNat ≤ 15 ∧ ∃ down, t =
      ((s.advance.issue (.kbIsKeyDown ((s.reg x).setWidth 4) down)).drawn).skipIf (down == wanted)) ∨
    (15 < (s.reg x).toNat ∧
      t = { s with status := .faulted, faultCause := 5, faultInfo := (s.reg x).setWidth 16 }) := by
  unfold keySkipWith at h
  split at h
  · exact .inr ⟨‹_›, raise_next h⟩
  · exact .inl ⟨by omega, _, (next_inj h).symm⟩

/-- A draw either passes the sprite and writes VF or raises MEM_RANGE (R132). -/
theorem drwWith_cases {answer : Bool} {x y : Reg} {n : Nibble} (h : drwWith answer x y n s = .next t) :
    (s.inRange n.toNat = true ∧ ∃ c, t =
      ((s.advance.issue (.fbDrawSprite (s.spriteRows n) (s.reg x) (s.reg y) c)).drawn).setReg Reg.vf (flagByte c)) ∨
    (s.inRange n.toNat = false ∧
      t = { s with status := .faulted, faultCause := 2, faultInfo := s.rangeInfo }) := by
  unfold drwWith at h
  split at h
  · exact .inl ⟨‹_›, _, (next_inj h).symm⟩
  · exact .inr ⟨Bool.eq_false_iff.mpr ‹_›, raise_next h⟩

/-- The range check as an inequality (R37). -/
theorem inRange_iff {n : Nat} : s.inRange n = true ↔ n = 0 ∨ s.I.toNat + n - 1 ≤ 4095 := by
  simp [State.inRange]

theorem inRange_false_iff {n : Nat} : s.inRange n = false ↔ n ≠ 0 ∧ 4095 < s.I.toNat + n - 1 := by
  rw [Bool.eq_false_iff, Ne, inRange_iff]
  omega

theorem stackFull_iff : s.stackFull = true ↔ stackDepth ≤ s.stack.length := by
  simp [State.stackFull]

@[simp] theorem length_decimalDigits (b : Byte) : (decimalDigits b).length = 3 := rfl

@[simp] theorem length_regsUpTo (x : Reg) : (s.regsUpTo x).length = x.val + 1 := by
  simp [State.regsUpTo]

/-- V0..VX in order (R114). -/
theorem getElem?_regsUpTo {x : Reg} {k : Nat} (h : k ≤ x.val) :
    (s.regsUpTo x)[k]? = some (s.reg ⟨k, by omega⟩) := by
  have := x.isLt
  simp [State.regsUpTo, State.reg, show k < x.val + 1 by omega]

/-- Under a schedule that is empty, or names a `Step`, the step is the instruction cycle (R7). -/
theorem step_of_empty (h : s.schedule = []) : step s = runInstr s := by
  rw [step, nextEvent, h]

/-- The event at the head of the schedule is taken off it and performed (R7, R8). -/
theorem step_of_cons {e : Event} {rest : List Event} (h : s.schedule = e :: rest) :
    step s = applyEvent e { s with schedule := rest } := by
  rw [step, nextEvent, h]

/-- Everything a `Step` event can do (R26). -/
theorem runInstr_cases (h : runInstr s = .next t) :
    (s.status = .faulted ∧ t = s) ∨
    (s.status = .running ∧ 4094 < s.pc.toNat ∧
      t = { s with status := .faulted, faultCause := 1, faultInfo := s.pc }) ∨
    (s.status = .running ∧ s.pc.toNat ≤ 4094 ∧ ∃ w, s.fetch = some w ∧
      ((∃ i, decodeWord w = .ok i ∧ exec i s = .next t) ∨
       (decodeWord w = .error (.unrecognised w) ∧ t = s.advance.issue (.reportUnrecognised w s.pc)))) := by
  unfold runInstr at h
  split at h
  · exact .inl ⟨‹_›, (next_inj h).symm⟩
  · split at h
    · rename_i hf
      refine .inr (.inl ⟨‹_›, ?_, raise_next h⟩)
      unfold State.fetch at hf
      split at hf
      · omega
      · cases hf
    · rename_i w hf
      refine .inr (.inr ⟨‹_›, ?_, w, hf, ?_⟩)
      · unfold State.fetch at hf
        split at hf
        · cases hf
        · omega
      · split at h
        · exact .inl ⟨_, ‹_›, h⟩
        · rename_i e he
          rw [decodeWord_error he] at he
          exact .inr ⟨he, (next_inj h).symm⟩

/-- Everything a step can do: the instruction cycle, or one of the host's other events (R7). -/
theorem step_cases (h : step s = .next t) :
    (s.schedule = [] ∧ runInstr s = .next t) ∨
    ∃ e rest, s.schedule = e :: rest ∧ applyEvent e { s with schedule := rest } = .next t := by
  cases hs : s.schedule with
  | nil => exact .inl ⟨rfl, by rwa [step_of_empty hs] at h⟩
  | cons e rest => exact .inr ⟨e, rest, rfl, by rwa [step_of_cons hs] at h⟩

/-- The cycle of the running machine on a word that decodes is the instruction's meaning (R26). -/
theorem runInstr_of_decode {w : Word} {i : Instr} (hr : s.status = .running) (hf : s.fetch = some w)
    (hd : decodeWord w = .ok i) : runInstr s = exec i s := by
  simp [runInstr, hr, hf, hd]

/-- A fetch inside the range (R33). -/
theorem fetch_of_le (h : s.pc.toNat ≤ 4094) :
    s.fetch = some (wordOfBytes (s.memory.read s.pc.toNat) (s.memory.read (s.pc.toNat + 1))) := by
  rw [State.fetch, if_neg (by omega)]

/-- A fetch outside the range (R33). -/
theorem fetch_of_gt (h : 4094 < s.pc.toNat) : s.fetch = none := by
  rw [State.fetch, if_pos h]

/-- A due `Step`, scheduled or not, is the instruction cycle of the state it is applied to (R7, R26). -/
theorem step_of_due {u : State} (h : StepDue s u) : step s = runInstr u := by
  rcases h with ⟨hs, rfl⟩ | ⟨rest, hs, rfl⟩
  · exact step_of_empty hs
  · exact step_of_cons hs

/-- The state a due `Step` is applied to differs from the state before it in the schedule alone. -/
theorem StepDue.eq {u : State} (h : StepDue s u) : u = { s with schedule := u.schedule } := by
  rcases h with ⟨_, rfl⟩ | ⟨rest, _, rfl⟩ <;> rfl

/-- The cycle of the faulted machine does nothing (R144). -/
theorem runInstr_of_faulted (h : s.status = .faulted) : runInstr s = .next s := by
  simp [runInstr, h]

/-- The cycle of the running machine with `pc` above 4094 faults (R33). -/
theorem runInstr_of_pc_gt (hr : s.status = .running) (h : 4094 < s.pc.toNat) :
    runInstr s = raise .fetchRange s.pc s := by
  simp [runInstr, hr, fetch_of_gt h]

/-- The cycle of the running machine on a word that does not decode is the no-op (R74). -/
theorem runInstr_of_error {w : Word} {e : DecodeError} (hr : s.status = .running) (hf : s.fetch = some w)
    (hd : decodeWord w = .error e) : runInstr s = execUnrecognised w s := by
  simp [runInstr, hr, hf, hd]

/-- A block store inside the address space (R46). -/
theorem storeAtIndex_of_inRange {bytes : List Byte} (h : s.inRange bytes.length = true) :
    storeAtIndex bytes s = .next { s.advance with memory := s.memory.writeBytes s.I.toNat bytes } := by
  rw [storeAtIndex, if_pos h]

/-- A block store that would leave the address space (R46). -/
theorem storeAtIndex_of_not_inRange {bytes : List Byte} (h : s.inRange bytes.length = false) :
    storeAtIndex bytes s = raise .memRange s.rangeInfo s := by
  rw [storeAtIndex, h]
  rfl

/-- An instruction ends in a fault, the given state but for the status registers, or leaves the status registers
and the schedule alone. -/
theorem exec_fault_or_runs {i : Instr} (h : exec i s = .next t) :
    (∃ c info, t = { s with status := .faulted, faultCause := Fault.code c, faultInfo := info }) ∨
    (t.status = s.status ∧ t.faultCause = s.faultCause ∧ t.faultInfo = s.faultInfo ∧ t.schedule = s.schedule) := by
  cases i
  case ret =>
    rcases execRet_cases h with ⟨_, _, rfl⟩ | ⟨_, rfl⟩
    · exact .inr (by simp)
    · exact .inl ⟨.stackUnderflow, _, rfl⟩
  case call =>
    rcases execCall_cases h with ⟨_, rfl⟩ | ⟨_, rfl⟩
    · exact .inr (by simp)
    · exact .inl ⟨.stackOverflow, _, rfl⟩
  case drw =>
    rcases drwWith_cases h with ⟨_, _, rfl⟩ | ⟨_, rfl⟩
    · exact .inr (by simp)
    · exact .inl ⟨.memRange, _, rfl⟩
  case skp | sknp =>
    rcases keySkipWith_cases h with ⟨_, _, rfl⟩ | ⟨_, rfl⟩
    · exact .inr (by simp)
    · exact .inl ⟨.keyRange, _, rfl⟩
  case ldB | dump =>
    rcases storeAtIndex_cases h with ⟨_, rfl⟩ | ⟨_, rfl⟩
    · exact .inr (by simp)
    · exact .inl ⟨.memRange, _, rfl⟩
  case load =>
    rcases execLoad_cases h with ⟨_, rfl⟩ | ⟨_, rfl⟩
    · exact .inr (by simp)
    · exact .inl ⟨.memRange, _, rfl⟩
  all_goals
    have e := next_inj h
    subst e
    exact .inr (by simp)

end Sys2Proof.Machine
end

