-- ==== Sys2Proof/Laws/PerInstr.lean ====
section
/-! SUPPORT. Facts about every instruction as syntax, one lemma a constructor. -/

namespace Sys2Proof.Laws

/-- R10, R51: a register number fits its four bits. -/
theorem regFits_reg (x : Reg) : regFits x = true := by
  simp [regFits]

/-- R51: an immediate fits its field. -/
theorem fieldFits_bits {width : Nat} (v : BitVec width) : fieldFits width v.toNat = true := by
  simp [fieldFits, v.isLt]

end Sys2Proof.Laws

namespace Sys2Proof.Laws.FieldsFit

/-- R51: no field of the instruction overflows its width. -/
def Statement (i : Instr) : Prop := i.wellFormed = true

theorem cls : Statement (.cls) := rfl

theorem ret : Statement (.ret) := rfl

theorem jp (nnn : Addr12) : Statement (.jp nnn) := fieldFits_bits nnn

theorem call (nnn : Addr12) : Statement (.call nnn) := fieldFits_bits nnn

theorem seImm (x : Reg) (nn : Byte) : Statement (.seImm x nn) := by
  simp [Statement, Instr.wellFormed, regFits_reg x, fieldFits_bits nn]

theorem sneImm (x : Reg) (nn : Byte) : Statement (.sneImm x nn) := by
  simp [Statement, Instr.wellFormed, regFits_reg x, fieldFits_bits nn]

theorem seReg (x : Reg) (y : Reg) : Statement (.seReg x y) := by
  simp [Statement, Instr.wellFormed, regFits_reg x, regFits_reg y]

theorem ldImm (x : Reg) (nn : Byte) : Statement (.ldImm x nn) := by
  simp [Statement, Instr.wellFormed, regFits_reg x, fieldFits_bits nn]

theorem addImm (x : Reg) (nn : Byte) : Statement (.addImm x nn) := by
  simp [Statement, Instr.wellFormed, regFits_reg x, fieldFits_bits nn]

theorem ldReg (x : Reg) (y : Reg) : Statement (.ldReg x y) := by
  simp [Statement, Instr.wellFormed, regFits_reg x, regFits_reg y]

theorem or (x : Reg) (y : Reg) : Statement (.or x y) := by
  simp [Statement, Instr.wellFormed, regFits_reg x, regFits_reg y]

theorem and (x : Reg) (y : Reg) : Statement (.and x y) := by
  simp [Statement, Instr.wellFormed, regFits_reg x, regFits_reg y]

theorem xor (x : Reg) (y : Reg) : Statement (.xor x y) := by
  simp [Statement, Instr.wellFormed, regFits_reg x, regFits_reg y]

theorem addReg (x : Reg) (y : Reg) : Statement (.addReg x y) := by
  simp [Statement, Instr.wellFormed, regFits_reg x, regFits_reg y]

theorem sub (x : Reg) (y : Reg) : Statement (.sub x y) := by
  simp [Statement, Instr.wellFormed, regFits_reg x, regFits_reg y]

theorem shr (x : Reg) (y : Reg) : Statement (.shr x y) := by
  simp [Statement, Instr.wellFormed, regFits_reg x, regFits_reg y]

theorem subn (x : Reg) (y : Reg) : Statement (.subn x y) := by
  simp [Statement, Instr.wellFormed, regFits_reg x, regFits_reg y]

theorem shl (x : Reg) (y : Reg) : Statement (.shl x y) := by
  simp [Statement, Instr.wellFormed, regFits_reg x, regFits_reg y]

theorem sneReg (x : Reg) (y : Reg) : Statement (.sneReg x y) := by
  simp [Statement, Instr.wellFormed, regFits_reg x, regFits_reg y]

theorem ldI (nnn : Addr12) : Statement (.ldI nnn) := fieldFits_bits nnn

theorem jpV0 (nnn : Addr12) : Statement (.jpV0 nnn) := fieldFits_bits nnn

theorem rnd (x : Reg) (nn : Byte) : Statement (.rnd x nn) := by
  simp [Statement, Instr.wellFormed, regFits_reg x, fieldFits_bits nn]

theorem drw (x : Reg) (y : Reg) (n : Nibble) : Statement (.drw x y n) := by
  simp [Statement, Instr.wellFormed, regFits_reg x, regFits_reg y, fieldFits_bits n]

theorem skp (x : Reg) : Statement (.skp x) := regFits_reg x

theorem sknp (x : Reg) : Statement (.sknp x) := regFits_reg x

theorem ldFromDt (x : Reg) : Statement (.ldFromDt x) := regFits_reg x

theorem ldKey (x : Reg) : Statement (.ldKey x) := regFits_reg x

theorem ldToDt (x : Reg) : Statement (.ldToDt x) := regFits_reg x

theorem ldToSt (x : Reg) : Statement (.ldToSt x) := regFits_reg x

theorem addI (x : Reg) : Statement (.addI x) := regFits_reg x

theorem ldF (x : Reg) : Statement (.ldF x) := regFits_reg x

theorem ldB (x : Reg) : Statement (.ldB x) := regFits_reg x

theorem dump (x : Reg) : Statement (.dump x) := regFits_reg x

theorem load (x : Reg) : Statement (.load x) := regFits_reg x

end Sys2Proof.Laws.FieldsFit

namespace Sys2Proof.Laws.KeepsItsGroup

/-- The group digit of an instruction's row in the table of R56. -/
def group : Instr → Nibble
  | .cls => 0x0
  | .ret => 0x0
  | .jp _ => 0x1
  | .call _ => 0x2
  | .seImm _ _ => 0x3
  | .sneImm _ _ => 0x4
  | .seReg _ _ => 0x5
  | .ldImm _ _ => 0x6
  | .addImm _ _ => 0x7
  | .ldReg _ _ => 0x8
  | .or _ _ => 0x8
  | .and _ _ => 0x8
  | .xor _ _ => 0x8
  | .addReg _ _ => 0x8
  | .sub _ _ => 0x8
  | .shr _ _ => 0x8
  | .subn _ _ => 0x8
  | .shl _ _ => 0x8
  | .sneReg _ _ => 0x9
  | .ldI _ => 0xA
  | .jpV0 _ => 0xB
  | .rnd _ _ => 0xC
  | .drw _ _ _ => 0xD
  | .skp _ => 0xE
  | .sknp _ => 0xE
  | .ldFromDt _ => 0xF
  | .ldKey _ => 0xF
  | .ldToDt _ => 0xF
  | .ldToSt _ => 0xF
  | .addI _ => 0xF
  | .ldF _ => 0xF
  | .ldB _ => 0xF
  | .dump _ => 0xF
  | .load _ => 0xF

/-- R51, R56: whatever the operands, the encoded word is in the instruction's group. -/
def Statement (i : Instr) : Prop := fieldG (encode i) = group i

theorem cls : Statement (.cls) := fieldG_formA _ _

theorem ret : Statement (.ret) := fieldG_formA _ _

theorem jp (nnn : Addr12) : Statement (.jp nnn) := fieldG_formA _ _

theorem call (nnn : Addr12) : Statement (.call nnn) := fieldG_formA _ _

theorem seImm (x : Reg) (nn : Byte) : Statement (.seImm x nn) := fieldG_formRI _ _ _

theorem sneImm (x : Reg) (nn : Byte) : Statement (.sneImm x nn) := fieldG_formRI _ _ _

theorem seReg (x : Reg) (y : Reg) : Statement (.seReg x y) := fieldG_formRRN _ _ _ _

theorem ldImm (x : Reg) (nn : Byte) : Statement (.ldImm x nn) := fieldG_formRI _ _ _

theorem addImm (x : Reg) (nn : Byte) : Statement (.addImm x nn) := fieldG_formRI _ _ _

theorem ldReg (x : Reg) (y : Reg) : Statement (.ldReg x y) := fieldG_formRRN _ _ _ _

theorem or (x : Reg) (y : Reg) : Statement (.or x y) := fieldG_formRRN _ _ _ _

theorem and (x : Reg) (y : Reg) : Statement (.and x y) := fieldG_formRRN _ _ _ _

theorem xor (x : Reg) (y : Reg) : Statement (.xor x y) := fieldG_formRRN _ _ _ _

theorem addReg (x : Reg) (y : Reg) : Statement (.addReg x y) := fieldG_formRRN _ _ _ _

theorem sub (x : Reg) (y : Reg) : Statement (.sub x y) := fieldG_formRRN _ _ _ _

theorem shr (x : Reg) (y : Reg) : Statement (.shr x y) := fieldG_formRRN _ _ _ _

theorem subn (x : Reg) (y : Reg) : Statement (.subn x y) := fieldG_formRRN _ _ _ _

theorem shl (x : Reg) (y : Reg) : Statement (.shl x y) := fieldG_formRRN _ _ _ _

theorem sneReg (x : Reg) (y : Reg) : Statement (.sneReg x y) := fieldG_formRRN _ _ _ _

theorem ldI (nnn : Addr12) : Statement (.ldI nnn) := fieldG_formA _ _

theorem jpV0 (nnn : Addr12) : Statement (.jpV0 nnn) := fieldG_formA _ _

theorem rnd (x : Reg) (nn : Byte) : Statement (.rnd x nn) := fieldG_formRI _ _ _

theorem drw (x : Reg) (y : Reg) (n : Nibble) : Statement (.drw x y n) := fieldG_formRRN _ _ _ _

theorem skp (x : Reg) : Statement (.skp x) := fieldG_formRI _ _ _

theorem sknp (x : Reg) : Statement (.sknp x) := fieldG_formRI _ _ _

theorem ldFromDt (x : Reg) : Statement (.ldFromDt x) := fieldG_formRI _ _ _

theorem ldKey (x : Reg) : Statement (.ldKey x) := fieldG_formRI _ _ _

theorem ldToDt (x : Reg) : Statement (.ldToDt x) := fieldG_formRI _ _ _

theorem ldToSt (x : Reg) : Statement (.ldToSt x) := fieldG_formRI _ _ _

theorem addI (x : Reg) : Statement (.addI x) := fieldG_formRI _ _ _

theorem ldF (x : Reg) : Statement (.ldF x) := fieldG_formRI _ _ _

theorem ldB (x : Reg) : Statement (.ldB x) := fieldG_formRI _ _ _

theorem dump (x : Reg) : Statement (.dump x) := fieldG_formRI _ _ _

theorem load (x : Reg) : Statement (.load x) := fieldG_formRI _ _ _

end Sys2Proof.Laws.KeepsItsGroup
end

