-- ==== Sys2Proof/Tests/Slice0.lean ====
section
/-! SUPPORT. Small tests: what the checks refuse, one word of every instruction decoded, one step of every
instruction, the host's events, and a state that meets the hypotheses of each obligation. Expected results are the
examples of the rules and the vectors of 95_test_vectors.md, named beside each test. -/

namespace Sys2Proof.Tests

open Sys2Proof.Machine

/-! ## Helpers -/

/-- The reset state with some registers written. -/
def withRegs (regs : List (Reg × Byte)) (s : State := State.reset) : State :=
  regs.foldl (fun t p => t.setReg p.1 p.2) s

/-- The next state of an outcome. -/
def stateOf : Out → Option State
  | .next t => some t
  | .fault _ => none
  | .refused _ => none

/-- The state after one step that runs the word `w` at `pc`. -/
def afterWord (w : Word) (s : State) : Option State := stateOf (step (s.withFetchWord 16 w.toNat))

/-- `pc` after the word. -/
def pcAfter (w : Word) (s : State) : Option Word := (afterWord w s).map State.pc

/-- Two registers after the word. -/
def regsAfter (w : Word) (a b : Reg) (s : State) : Option (Byte × Byte) :=
  (afterWord w s).map fun t => (t.reg a, t.reg b)

/-- `I` and VF after the word. -/
def indexAfterWord (w : Word) (s : State) : Option (Word × Byte) := (afterWord w s).map fun t => (t.I, t.reg 15)

/-- `count` bytes of memory from `a` up after the word. -/
def bytesAfter (w : Word) (a count : Nat) (s : State) : Option (List Byte) :=
  (afterWord w s).map fun t => t.memory.readBytes a count

/-- The status registers and `pc` after the word. -/
def faultAfter (w : Word) (s : State) : Option (Status × BitVec 3 × Word × Word) :=
  (afterWord w s).map fun t => (t.status, t.faultCause, t.faultInfo, t.pc)

/-- The state with bytes stored from `a` up. -/
def withBytes (a : Nat) (bs : List Byte) (s : State) : State := { s with memory := s.memory.writeBytes a bs }

/-! ## Well-formedness: an ill-formed term for each check -/

theorem test_regFits_refuses_16 : regFits 15 = true ∧ regFits 16 = false := by decide

theorem test_fieldFits_refuses_overflow :
    fieldFits 4 15 = true ∧ fieldFits 4 16 = false ∧ fieldFits 8 255 = true ∧ fieldFits 8 256 = false ∧
    fieldFits 12 4095 = true ∧ fieldFits 12 4096 = false := by decide

theorem test_imageFits_refuses_3585 :
    imageFits (List.replicate 3584 0) = true ∧ imageFits (List.replicate 3585 0) = false :=
  ⟨decide_eq_true (List.length_replicate ▸ Nat.le_refl 3584),
    decide_eq_false (List.length_replicate ▸ Nat.not_succ_le_self 3584)⟩

theorem test_memory_form_refuses_unsorted :
    Memory.wf [(0x300, 1), (0x200, 2)] = false ∧ Memory.wf [(0x300, 1), (0x300, 2)] = false := by decide

theorem test_memory_form_refuses_listed_default :
    Memory.wf [(0x300, 0)] = false ∧ Memory.wf [(0, 0xF0)] = false ∧ Memory.wf [(4096, 1)] = false ∧
    Memory.wf [(0x300, 7), (4095, 1)] = true := by decide

/-! ## Decoding: words written out from the patterns of R56 (2.7: E1 to E12) -/

theorem test_decode_group_0 :
    decodeWord 0x00E0 = .ok .cls ∧ decodeWord 0x00EE = .ok .ret ∧
    decodeWord 0x00E1 = .error (.unrecognised 0x00E1) ∧ decodeWord 0x0FFF = .error (.unrecognised 0x0FFF) :=
  ⟨rfl, rfl, rfl, rfl⟩

theorem test_decode_address_forms :
    decodeWord 0x10E0 = .ok (.jp 0x0E0) ∧ decodeWord 0x2400 = .ok (.call 0x400) ∧
    decodeWord 0xA2F0 = .ok (.ldI 0x2F0) ∧ decodeWord 0xBFFF = .ok (.jpV0 0xFFF) :=
  ⟨rfl, rfl, rfl, rfl⟩

theorem test_decode_register_immediate_forms :
    decodeWord 0x332A = .ok (.seImm 3 0x2A) ∧ decodeWord 0x4300 = .ok (.sneImm 3 0x00) ∧
    decodeWord 0x6A7F = .ok (.ldImm 10 0x7F) ∧ decodeWord 0x7F02 = .ok (.addImm 15 0x02) ∧
    decodeWord 0xC30F = .ok (.rnd 3 0x0F) :=
  ⟨rfl, rfl, rfl, rfl, rfl⟩

theorem test_decode_register_skips :
    decodeWord 0x5AB0 = .ok (.seReg 10 11) ∧ decodeWord 0x5ABF = .ok (.seReg 10 11) ∧
    decodeWord 0x9AB0 = .ok (.sneReg 10 11) ∧ decodeWord 0x9ABE = .ok (.sneReg 10 11) :=
  ⟨rfl, rfl, rfl, rfl⟩

theorem test_decode_group_8 :
    decodeWord 0x8AB0 = .ok (.ldReg 10 11) ∧ decodeWord 0x8AB1 = .ok (.or 10 11) ∧
    decodeWord 0x8AB2 = .ok (.and 10 11) ∧ decodeWord 0x8AB3 = .ok (.xor 10 11) ∧
    decodeWord 0x8AB4 = .ok (.addReg 10 11) ∧ decodeWord 0x8AB5 = .ok (.sub 10 11) ∧
    decodeWord 0x8AB6 = .ok (.shr 10 11) ∧ decodeWord 0x8AB7 = .ok (.subn 10 11) ∧
    decodeWord 0x8ABE = .ok (.shl 10 11) :=
  ⟨rfl, rfl, rfl, rfl, rfl, rfl, rfl, rfl, rfl⟩

theorem test_decode_draw_and_keys :
    decodeWord 0xD125 = .ok (.drw 1 2 5) ∧ decodeWord 0xD000 = .ok (.drw 0 0 0) ∧
    decodeWord 0xEF9E = .ok (.skp 15) ∧ decodeWord 0xE0A1 = .ok (.sknp 0) :=
  ⟨rfl, rfl, rfl, rfl⟩

theorem test_decode_group_F :
    decodeWord 0xF107 = .ok (.ldFromDt 1) ∧ decodeWord 0xF20A = .ok (.ldKey 2) ∧
    decodeWord 0xF315 = .ok (.ldToDt 3) ∧ decodeWord 0xF418 = .ok (.ldToSt 4) ∧
    decodeWord 0xF51E = .ok (.addI 5) ∧ decodeWord 0xF629 = .ok (.ldF 6) ∧ decodeWord 0xF733 = .ok (.ldB 7) ∧
    decodeWord 0xF855 = .ok (.dump 8) ∧ decodeWord 0xF965 = .ok (.load 9) :=
  ⟨rfl, rfl, rfl, rfl, rfl, rfl, rfl, rfl, rfl⟩

theorem test_decode_unrecognised :
    decodeWord 0x8AB8 = .error (.unrecognised 0x8AB8) ∧ decodeWord 0x8ABF = .error (.unrecognised 0x8ABF) ∧
    decodeWord 0xE09F = .error (.unrecognised 0xE09F) ∧ decodeWord 0xF030 = .error (.unrecognised 0xF030) :=
  ⟨rfl, rfl, rfl, rfl⟩

theorem test_encode_words :
    encode (.seReg 10 11) = 0x5AB0 ∧ encode (.drw 1 2 5) = 0xD125 ∧ encode (.jp 0x0E0) = 0x10E0 ∧
    encode (.addImm 15 0x02) = 0x7F02 ∧ encode (.shl 10 11) = 0x8ABE ∧ encode (.load 9) = 0xF965 := by decide

theorem test_decodeBytes_is_big_endian :
    decodeBytes [0x12, 0x34, 0xFF] = .ok (.jp 0x234, [0xFF]) ∧ decodeBytes [0x12] = .error .truncated :=
  ⟨rfl, rfl⟩

theorem test_decodeTableWord : decodeTableWord 16 0x8014 = some (.addReg 0 1) ∧ decodeTableWord 16 0xF030 = none := by
  decide

/-- S1 of part 1: the fields of 0xF0A5. -/
theorem test_fields : fieldG 0xF0A5 = 0xF ∧ fieldX 0xF0A5 = 0 ∧ fieldY 0xF0A5 = 10 ∧ fieldN 0xF0A5 = 5 ∧
    fieldNN 0xF0A5 = 0xA5 ∧ fieldNNN 0xF0A5 = 0x0A5 := by decide

/-! ## Control transfer (2.1) -/

/-- T2. -/
theorem test_ret : (afterWord 0x00EE { State.reset with stack := [0x202, 0x345] }).map (fun t => (t.pc, t.stack)) =
    some (0x345, [0x202]) := by decide

/-- T3. -/
theorem test_ret_underflow : faultAfter 0x00EE State.reset = some (.faulted, 3, 0, 0x200) := by decide

/-- T4. -/
theorem test_jp : pcAfter 0x1300 { State.reset with pc := 0x2A0 } = some 0x300 := by decide

/-- T8: the 16th entry. -/
theorem test_call : (afterWord 0x2400 { State.reset with pc := 0x300, stack := List.replicate 15 0x202 }).map
    (fun t => (t.pc, t.stack)) = some (0x400, List.replicate 15 0x202 ++ [0x302]) := by decide

/-- T9: the 17th. -/
theorem test_call_overflow :
    faultAfter 0x2400 { State.reset with pc := 0x300, stack := List.replicate 16 0x202 } =
      some (.faulted, 4, 0, 0x300) := by decide

/-- T11. -/
theorem test_jpV0_is_not_reduced : pcAfter 0xBFFF (withRegs [(0, 0xFF)]) = some 0x10FE := by decide

/-- T13. -/
theorem test_unrecognised : (afterWord 0x0000 (withRegs [(1, 5)])).map (fun t => (t.pc, t.reg 1, t.outputs)) =
    some (0x202, 5, [.reportUnrecognised 0x0000 0x200]) := by decide

/-- T21: the last fetch address. -/
theorem test_fetch_at_4094 : (afterWord 0x6A55 { State.reset with pc := 0xFFE }).map (fun t => (t.pc, t.reg 10)) =
    some (0x1000, 0x55) := by decide

/-- T19: the first address past it. -/
theorem test_fetch_at_4095 :
    (stateOf (step { State.reset with pc := 0xFFF })).map (fun t => (t.status, t.faultCause, t.faultInfo, t.pc)) =
      some (.faulted, 1, 0xFFF, 0xFFF) := by decide

/-! ## Skips (2.2) -/

/-- T23, T24. -/
theorem test_seImm : pcAfter 0x332A (withRegs [(3, 0x2A)]) = some 0x204 ∧
    pcAfter 0x332A (withRegs [(3, 0x2B)]) = some 0x202 := by decide

/-- T25, T26. -/
theorem test_sneImm : pcAfter 0x432A (withRegs [(3, 0x2A)]) = some 0x202 ∧
    pcAfter 0x4300 (withRegs [(3, 0x2A)]) = some 0x204 := by decide

/-- T29, T28. -/
theorem test_seReg : pcAfter 0x512F (withRegs [(1, 7), (2, 7)]) = some 0x204 ∧
    pcAfter 0x5120 (withRegs [(1, 7), (2, 8)]) = some 0x202 := by decide

/-- T33, T32. -/
theorem test_sneReg : pcAfter 0x9127 (withRegs [(1, 7), (2, 8)]) = some 0x204 ∧
    pcAfter 0x9120 (withRegs [(1, 7), (2, 7)]) = some 0x202 := by decide

/-! ## Registers and ALU (2.3) -/

/-- T37, T38. -/
theorem test_ldImm : regsAfter 0x6A7F 10 15 State.reset = some (0x7F, 0) ∧
    regsAfter 0x6F55 15 10 (withRegs [(15, 1)]) = some (0x55, 0) := by decide

/-- T39, T42. -/
theorem test_addImm : regsAfter 0x7103 1 15 (withRegs [(1, 0xFE)]) = some (0x01, 0x00) ∧
    regsAfter 0x7F02 15 1 (withRegs [(15, 0xFF)]) = some (0x01, 0x00) := by decide

/-- T43. -/
theorem test_ldReg : regsAfter 0x8120 1 15 (withRegs [(2, 0x33), (15, 1)]) = some (0x33, 0x01) := by decide

/-- T44, T48. -/
theorem test_or : regsAfter 0x8011 0 15 (withRegs [(0, 0xFF), (1, 0x0F), (15, 1)]) = some (0xFF, 0x00) ∧
    regsAfter 0x8F11 15 1 (withRegs [(15, 0x80), (1, 0x01)]) = some (0x00, 0x01) := by decide

/-- T45. -/
theorem test_and : regsAfter 0x8012 0 15 (withRegs [(0, 0xF0), (1, 0x3C), (15, 1)]) = some (0x30, 0x00) := by decide

/-- T46, T47. -/
theorem test_xor : regsAfter 0x8013 0 15 (withRegs [(0, 0xF0), (1, 0x3C), (15, 1)]) = some (0xCC, 0x00) ∧
    regsAfter 0x8113 1 15 (withRegs [(1, 0xAB), (15, 1)]) = some (0x00, 0x00) := by decide

/-- T50, T52. -/
theorem test_addReg : regsAfter 0x8014 0 15 (withRegs [(0, 0xFF), (1, 0x01)]) = some (0x00, 0x01) ∧
    regsAfter 0x8014 0 15 (withRegs [(0, 0xFE), (1, 0x01), (15, 1)]) = some (0xFF, 0x00) := by decide

/-- T55, T56: VF as destination and as operand. -/
theorem test_addReg_with_vf : regsAfter 0x8F14 15 1 (withRegs [(15, 0x01), (1, 0x02)]) = some (0x00, 0x02) ∧
    regsAfter 0x81F4 1 15 (withRegs [(1, 0xFF), (15, 0x01)]) = some (0x00, 0x01) := by decide

/-- T57, T59. -/
theorem test_sub : regsAfter 0x8015 0 15 (withRegs [(0, 0x05), (1, 0x0A)]) = some (0xFB, 0x00) ∧
    regsAfter 0x8015 0 15 (withRegs [(0, 0x07), (1, 0x07)]) = some (0x00, 0x01) := by decide

/-- T63, T64. -/
theorem test_shr : regsAfter 0x8406 4 15 (withRegs [(4, 0x80), (15, 1)]) = some (0x40, 0x00) ∧
    regsAfter 0x8456 4 15 (withRegs [(4, 0x05), (5, 0xF0)]) = some (0x02, 0x01) := by decide

/-- T68, T69. -/
theorem test_subn : regsAfter 0x8017 0 15 (withRegs [(0, 0x05), (1, 0x0A)]) = some (0x05, 0x01) ∧
    regsAfter 0x8017 0 15 (withRegs [(0, 0x0A), (1, 0x05)]) = some (0xFB, 0x00) := by decide

/-- T71, T75. -/
theorem test_shl : regsAfter 0x840E 4 15 (withRegs [(4, 0x81)]) = some (0x02, 0x01) ∧
    regsAfter 0x8F0E 15 4 (withRegs [(15, 0x7F)]) = some (0x00, 0x00) := by decide

/-! ## Index register and memory (2.4) -/

/-- T77. -/
theorem test_ldI : indexAfterWord 0xAFFF { State.reset with I := 0x123 } = some (0xFFF, 0) := by decide

/-- T78, T79. -/
theorem test_addI : indexAfterWord 0xF21E (withRegs [(2, 1), (15, 1)] { State.reset with I := 0xFFE }) =
      some (0xFFF, 0) ∧
    indexAfterWord 0xF21E (withRegs [(2, 1)] { State.reset with I := 0xFFF }) = some (0x000, 1) := by decide

/-- T82. -/
theorem test_addI_of_vf : indexAfterWord 0xFF1E (withRegs [(15, 1)] { State.reset with I := 0xFFF }) =
    some (0x000, 1) := by decide

/-- T84, T88. -/
theorem test_ldF : indexAfterWord 0xF329 (withRegs [(3, 0x0A)]) = some (0x032, 0) ∧
    indexAfterWord 0xF329 (withRegs [(3, 0xFF)]) = some (0x4FB, 0) := by decide

/-- T89. -/
theorem test_ldB : bytesAfter 0xF033 0x300 3 (withRegs [(0, 0xFE)] { State.reset with I := 0x300 }) =
    some [0x02, 0x05, 0x04] := by decide

/-- T94: no partial store. -/
theorem test_ldB_out_of_range :
    let s := withBytes 0xFFE [0xAA, 0xBB] (withRegs [(0, 0x64)] { State.reset with I := 0xFFE })
    faultAfter 0xF033 s = some (.faulted, 2, 4096, 0x200) ∧ bytesAfter 0xF033 0xFFE 2 s = some [0xAA, 0xBB] := by
  decide

/-- T96. -/
theorem test_dump :
    bytesAfter 0xF155 0x400 3 (withRegs [(0, 0x11), (1, 0x22), (2, 0x33)] { State.reset with I := 0x400 }) =
      some [0x11, 0x22, 0x00] := by decide

/-- T98: no partial store. -/
theorem test_dump_out_of_range :
    let s := withBytes 0xFFF [0x77] (withRegs [(0, 0x11), (1, 0x22)] { State.reset with I := 0xFFF })
    faultAfter 0xF155 s = some (.faulted, 2, 4096, 0x200) ∧ bytesAfter 0xF155 0xFFF 1 s = some [0x77] := by decide

/-- T101: V2 is loaded, V3 is not. -/
theorem test_load : regsAfter 0xF265 2 3
    (withBytes 0x300 [0x02, 0x05, 0x04, 0x09] (withRegs [(3, 0x77)] { State.reset with I := 0x300 })) =
      some (0x04, 0x77) := by decide

/-- T104: no partial load. -/
theorem test_load_out_of_range :
    let s := withBytes 0xFFF [0x77] (withRegs [(0, 0x01), (1, 0x02)] { State.reset with I := 0xFFF })
    faultAfter 0xF165 s = some (.faulted, 2, 4096, 0x200) ∧ regsAfter 0xF165 0 1 s = some (0x01, 0x02) := by decide

/-! ## Timers (2.5) -/

/-- T105. -/
theorem test_ldFromDt : regsAfter 0xF507 5 15 { State.reset with dt := 60 } = some (0x3C, 0) := by decide

/-- T107. -/
theorem test_ldToDt : (afterWord 0xF515 (withRegs [(5, 0x3C)])).map (fun t => (t.dt, t.st)) = some (60, 0) := by decide

/-- T109. -/
theorem test_ldToSt : (afterWord 0xF518 (withRegs [(5, 2)] { State.reset with dt := 7 })).map
    (fun t => (t.dt, t.st)) = some (7, 2) := by decide

/-- T132: a `Tick` of the faulted machine. -/
theorem test_tick :
    (stateOf (step { State.reset with status := .faulted, dt := 2, st := 7, schedule := [.tick] })).map
      (fun t => (t.dt, t.st, t.status)) = some (1, 6, .faulted) := by decide

/-- T130: no wrap below zero. -/
theorem test_tick_stays_at_zero : countDown 0 = 0 ∧ countDown 1 = 0 ∧ countDown 255 = 254 := by decide

/-! ## Collaborators (2.6): the meanings at the answers the vectors give -/

/-- T111. -/
theorem test_cls : (afterWord 0x00E0 (withRegs [(15, 1)])).map (fun t => (t.pc, t.reg 15, t.outputs)) =
    some (0x202, 1, [.fbClear]) := by decide

/-- T112, T115. -/
theorem test_rnd : (stateOf (rndWith 0xA7 3 0x0F State.reset)).map (fun t => (t.reg 3, t.pc)) = some (0x07, 0x202) ∧
    (stateOf (rndWith 0xFF 15 0x81 State.reset)).map (fun t => t.reg 15) = some 0x81 := by decide

/-- T121: the old VF is a coordinate. -/
theorem test_drw : (stateOf (drwWith true 15 1 2 (withRegs [(15, 3), (1, 4)] { State.reset with I := 5 }))).map
    (fun t => (t.reg 15, t.outputs)) = some (1, [.fbDrawSprite [0x20, 0x60] 3 4 true]) := by decide

/-- T118: no rows, no range check, no collision. -/
theorem test_drw_of_no_rows :
    (stateOf (drwWith true 1 2 0 (withRegs [(1, 10), (2, 5), (15, 1)] { State.reset with I := 0xFFF }))).map
      (fun t => (t.reg 15, t.outputs)) = some (0, [.fbDrawSprite [] 10 5 false]) := by decide

/-- T120, T126. -/
theorem test_collaborator_faults :
    faultAfter 0xD122 { State.reset with I := 0xFFF } = some (.faulted, 2, 4096, 0x200) ∧
    faultAfter 0xE29E (withRegs [(2, 0x10)]) = some (.faulted, 5, 16, 0x200) := by decide

/-- T122, T123. -/
theorem test_skp : (stateOf (keySkipWith 0x0400 true 2 (withRegs [(2, 0x0A)]))).map State.pc = some 0x204 ∧
    (stateOf (keySkipWith 0x0002 true 2 (withRegs [(2, 0x0A)]))).map State.pc = some 0x202 := by decide

/-- T124, T125. -/
theorem test_sknp : (stateOf (keySkipWith 0x0000 false 2 (withRegs [(2, 0x0A)]))).map State.pc = some 0x204 ∧
    (stateOf (keySkipWith 0x0400 false 2 (withRegs [(2, 0x0A)]))).map State.pc = some 0x202 := by decide

/-- T128, T129, and the digit the answer is when a key is down (R137). -/
theorem test_ldKey : (stateOf (ldKeyWith 0xC3 4 State.reset)).map (fun t => (t.reg 4, t.pc)) = some (0xC3, 0x202) ∧
    limitActive 0 0xC3 = 0xC3 ∧ limitActive 0x0080 0xC7 = 0x07 := by decide

/-! ## The host's events -/

/-- S2 of part 1. -/
theorem test_loadProgram :
    (loadProgram [0x12, 0x00] { State.reset with pc := 0x300 }).memory.readBytes 0x1FF 4 = [0, 0x12, 0, 0] ∧
    (loadProgram [0x12, 0x00] { State.reset with pc := 0x300 }).pc = 0x200 := by decide

/-- P6 of part 3: after the fault, `Reset` runs again and keeps memory. -/
theorem test_reset_event : (hostReset { withBytes 0x300 [9] State.reset with status := .faulted, faultCause := 3 }) =
    { withBytes 0x300 [9] State.reset with outputs := [.fbClear] } := by decide

/-- The font of R32: glyph 0 first, glyph F last, zero after it. -/
theorem test_powerOn_font : (powerOn State.reset).memory.readBytes 0 5 = [0xF0, 0x90, 0x90, 0x90, 0xF0] ∧
    (powerOn State.reset).memory.readBytes 75 6 = [0xF0, 0x80, 0xF0, 0x80, 0x80, 0] := by decide

/-! ## Witnesses: a state and operands that meet the hypotheses of each obligation that has any -/

/-- `SUB V0,V1` at 0x200, with values that borrow. -/
def subReady : State := State.withFetchWord (withRegs [(0, 5), (1, 10)]) 16 0x8015

/-- A machine that has faulted on an empty stack. -/
def faulted (schedule : List Event) : State :=
  { State.reset with status := .faulted, faultCause := 3, dt := 1, schedule := schedule }

theorem witness_StepRunsTheDecodedInstruction :
    subReady.status = .running ∧ subReady.fetch = some 0x8015 ∧ decodeWord 0x8015 = .ok (.sub 0 1) ∧
    subReady.schedule = [] ∧ State.schedule { subReady with schedule := [.step, .tick] } = .step :: [.tick] :=
  ⟨rfl, rfl, rfl, rfl, rfl⟩

/-- Both ways a `Step` is due: nothing scheduled, or a scheduled `Step`, which is taken off. -/
theorem witness_StepDue :
    StepDue subReady subReady ∧ StepDue { subReady with schedule := [.step, .tick] } { subReady with schedule := [.tick] } :=
  ⟨.inl ⟨rfl, rfl⟩, .inr ⟨[.tick], rfl, rfl⟩⟩

/-- T20 with a scheduled `Step`: it faults and is taken off the schedule. -/
theorem test_scheduled_fetch_fault :
    (stateOf (step { State.reset with pc := 0x1000, schedule := [.step, .tick] })).map
      (fun t => (t.status, t.faultCause, t.faultInfo, t.schedule)) = some (.faulted, 1, 4096, [.tick]) := by decide

/-- T13 with a scheduled `Step`. -/
theorem test_scheduled_unrecognised :
    (stateOf (step { State.reset with schedule := [.step, .tick] })).map (fun t => (t.pc, t.outputs, t.schedule)) =
      some (0x202, [.reportUnrecognised 0x0000 0x200], [.tick]) := by decide

theorem witness_FetchIsBigEndianAndRangeChecked :
    (State.pc { State.reset with pc := 4094 }).toNat ≤ 4094 ∧ 4094 < (State.pc { State.reset with pc := 4095 }).toNat ∧
    State.status { State.reset with pc := 4095 } = .running ∧
    StepDue { State.reset with pc := 4095 } { State.reset with pc := 4095 } ∧
    StepDue { State.reset with pc := 4095, schedule := [.step] } { State.reset with pc := 4095 } :=
  ⟨by decide, by decide, rfl, .inl ⟨rfl, rfl⟩, .inr ⟨[], rfl, rfl⟩⟩

theorem witness_UnrecognisedWordOnlyReports :
    State.reset.status = .running ∧ StepDue State.reset State.reset ∧
    StepDue { State.reset with schedule := [.step] } State.reset ∧ State.reset.fetch = some 0x0000 ∧
    ∀ r ∈ opcodeTable, (0x0000 : Word) &&& r.mask ≠ r.value :=
  ⟨rfl, .inl ⟨rfl, rfl⟩, .inr ⟨[], rfl, rfl⟩, by decide, by decide⟩

theorem witness_StepFaultsExactlyAsTheTableSays :
    subReady.status = .running ∧ faultOfTable subReady = none ∧
    faultOfTable (State.withFetchWord State.reset 16 0x00EE) = some (3, 0) ∧
    faultOfTable (State.withFetchWord { State.reset with stack := List.replicate 16 0x202 } 16 0x2400) = some (4, 0) ∧
    faultOfTable (State.withFetchWord { State.reset with I := 0xFFE } 16 0xF033) = some (2, 4096) ∧
    faultOfTable (State.withFetchWord { State.reset with I := 0xFFD } 16 0xF033) = none := by decide

theorem witness_FaultEntryIsPrecise :
    (State.withFetchWord State.reset 16 0x00EE).status = .running ∧
    (stateOf (step (State.withFetchWord State.reset 16 0x00EE))).map State.status = some .faulted ∧
    (stateOf (step { State.withFetchWord State.reset 16 0x00EE with schedule := [.step] })).map State.status =
      some .faulted := by decide

theorem witness_FaultedMachineWaitsForTheHost :
    (faulted []).status = .faulted ∧ (faulted []).schedule = [] ∧ (faulted [.step]).schedule = .step :: [] ∧
    (faulted [.tick]).schedule = .tick :: [] ∧ (faulted [.reset]).schedule = .reset :: [] ∧
    (faulted [.powerOn]).schedule = .powerOn :: [] ∧ ([] : List Byte).length ≤ 3584 := by decide

theorem witness_faulted_loads :
    (faulted [.loadProgram (List.replicate 3584 0)]).schedule = .loadProgram (List.replicate 3584 0) :: [] ∧
    (List.replicate 3584 (0 : Byte)).length ≤ 3584 ∧
    (faulted [.loadProgram (List.replicate 3585 0)]).schedule = .loadProgram (List.replicate 3585 0) :: [] ∧
    3584 < (List.replicate 3585 (0 : Byte)).length :=
  ⟨rfl, List.length_replicate ▸ Nat.le_refl 3584, rfl, List.length_replicate ▸ Nat.lt_succ_self 3584⟩

theorem witness_TickDecrementsNonzeroTimers :
    State.schedule { State.reset with dt := 1, schedule := [.tick] } = .tick :: [] ∧
    State.dt { State.reset with dt := 1, schedule := [.tick] } ≠ 0 ∧
    State.st { State.reset with dt := 1, schedule := [.tick] } = 0 ∧
    State.dt { State.reset with st := 255, schedule := [.tick] } = 0 ∧
    State.st { State.reset with st := 255, schedule := [.tick] } ≠ 0 := by decide

theorem witness_host_operations :
    (faulted [.powerOn, .tick]).schedule = .powerOn :: [.tick] ∧ (faulted [.reset]).schedule = .reset :: [] := by decide

theorem witness_LoadProgramPlacesTheImage :
    State.schedule { State.reset with schedule := [.loadProgram [0x12, 0x00]] } = .loadProgram [0x12, 0x00] :: [] ∧
    [(0x12 : Byte), 0x00].length ≤ 3584 ∧ 1 < [(0x12 : Byte), 0x00].length ∧ 79 < 80 ∧
    80 ≤ 511 ∧ 512 + [(0x12 : Byte), 0x00].length ≤ 514 := by decide

theorem witness_EachEventIssuesAtMostOneTransaction :
    (stateOf (step (State.withFetchWord State.reset 16 0x00E0))).map State.outputs = some [.fbClear] := by decide

theorem witness_EncodeOfDecode : decodeWord 0x5ABF = .ok (.seReg 10 11) ∧ canonicalWord 0x5ABF = 0x5AB0 := ⟨rfl, rfl⟩

theorem witness_DecoderSelectsByMaskAndMatch :
    (∃ r ∈ opcodeTable, (0xF065 : Word) &&& r.mask = r.value) ∧
    ∀ r ∈ opcodeTable, (0xF066 : Word) &&& r.mask ≠ r.value := by decide

theorem witness_IgnoredFieldsChangeNothing :
    fieldG 0x5AB0 = 5 ∧ fieldG 0x9ABE = 9 ∧ (0x5AB0 : Word).toNat / 16 = (0x5ABF : Word).toNat / 16 := by decide

/-- Each row's hypothesis `w & mask = match`, one word of each mask. -/
theorem witness_RowDecodes :
    (0x00EE : Word) &&& 0xFFFF = 0x00EE ∧ (0x1FFF : Word) &&& 0xF000 = 0x1000 ∧
    (0x8AB5 : Word) &&& 0xF00F = 0x8005 ∧ (0xFF65 : Word) &&& 0xF0FF = 0xF065 := by decide

theorem witness_RetPopsThePc :
    State.stack { State.reset with stack := [0x202, 0x345] } = [0x202] ++ [0x345] ∧ State.reset.stack = [] := by decide

theorem witness_CallPushesTheReturnAddress :
    (State.stack { State.reset with stack := List.replicate 15 0x202 }).length < 16 ∧
    16 ≤ (State.stack { State.reset with stack := List.replicate 16 0x202 }).length := by decide

theorem witness_AddIndexWrapsAt4096WithFlag :
    (State.I { withRegs [(2, 1)] with I := 0xFFF }).toNat + ((withRegs [(2, 1)]).reg 2).toNat > 0xFFF ∧
    (State.I { withRegs [(2, 1)] with I := 0xFFE }).toNat + ((withRegs [(2, 1)]).reg 2).toNat ≤ 0xFFF := by decide

theorem witness_BcdStoresThreeDigits :
    State.reset.memory.wf = true ∧ (State.I { State.reset with I := 0xFFD }).toNat + 2 ≤ 4095 ∧
    4095 < (State.I { State.reset with I := 0xFFE }).toNat + 2 := by decide

theorem witness_block_transfers :
    subReady.memory.wf = true ∧ (State.I { subReady with I := 0xFF0 }).toNat + (15 : Reg).val ≤ 4095 ∧
    4095 < (State.I { subReady with I := 0xFF1 }).toNat + (15 : Reg).val := by decide

theorem witness_DrawPassesTheRows :
    ((0 : Nibble).toNat = 0 ∧ (15 : Nibble).toNat ≠ 0) ∧
    (State.I { State.reset with I := 0xFF1 }).toNat + (15 : Nibble).toNat - 1 ≤ 4095 ∧
    4095 < (State.I { State.reset with I := 0xFF2 }).toNat + (15 : Nibble).toNat - 1 := by decide

theorem witness_KeySkipsFollowTheKeyboard :
    ((withRegs [(2, 15)]).reg 2).toNat = (15 : Nibble).toNat ∧ 15 < ((withRegs [(2, 16)]).reg 2).toNat := by decide

/-- The bounds, in a state that is not the reset state. -/
theorem witness_bounds :
    subReady.I = 0 ∧ subReady.stack = [] ∧ subReady.pc = 0x200 ∧ subReady.memory.wf = true ∧
    subReady.faultCause = 0 ∧ subReady.faultInfo = 0 ∧ subReady.status = .running := by decide

theorem witness_EventsKeepTheInvariant : Inv subReady := by
  have ⟨hI, hstack, hpc, hmemory, hcause, hinfo, hstatus⟩ := witness_bounds
  constructor <;> simp [hI, hstack, hpc, hmemory, hcause, hinfo, hstatus]

/-- The record is true of a state faulted by a return, and its bounds hold. -/
theorem witness_EventsKeepTheFaultRecordTrue : Inv (faulted [.tick]) ∧ FaultRecord (faulted [.tick]) :=
  ⟨by constructor <;> simp [faulted, State.reset]; decide, fun _ => .inr (.inr (.inl (by decide)))⟩

theorem witness_steps_answer : (stateOf (step subReady)).isSome = true ∧ (stateOf (step (faulted [.tick]))).isSome = true := by
  decide

theorem witness_CanonicalMemoriesReadingAlikeAreEqual :
    subReady.memory.wf = true ∧ subReady.memory = Memory.write (Memory.write [] 0x201 0x15) 0x200 0x80 := by decide

/-- Instructions that write each piece of state of the access summary. -/
theorem witness_OnlyTheNamedInstructionsWriteEachState :
    (stateOf (exec (.ldToDt 0) subReady)).map State.dt = some 5 ∧
    (stateOf (exec (.ldToSt 0) subReady)).map State.st = some 5 ∧
    (stateOf (exec (.ldF 0) subReady)).map State.I = some 25 ∧
    (stateOf (exec (.call 0x400) subReady)).map State.stack = some [0x202] ∧
    (stateOf (exec (.jp 0x400) subReady)).map State.pc = some 0x400 := by decide

theorem witness_RegistersAreWrittenOnlyAsNamed :
    (stateOf (exec (.sub 0 1) subReady)).map (fun t => (t.reg 0, t.status)) = some (0xFB, .running) ∧
    subReady.reg 0 = 5 ∧ writesFlag (.sub 0 1) = true ∧ subReady.status = .running := by decide

/-- P1's last word: a JP to itself at 0x20C. -/
theorem witness_JumpToSelfIsAFixedPoint :
    Finished (State.withFetchWord { State.reset with pc := 0x20C } 16 0x120C) ∧
    Finished { State.withFetchWord { State.reset with pc := 0x20C } 16 0x120C with schedule := [.tick] } :=
  ⟨⟨rfl, 0x20C, rfl, by decide⟩, ⟨rfl, 0x20C, rfl, by decide⟩⟩

/-- P5: the dump at 0x206 writes the word at 0x208. -/
theorem witness_StoreIsSeenByTheNextFetch :
    State.reset.memory.wf = true ∧ 1 ≤ (1 : Reg).val ∧
    (State.I { State.reset with pc := 0x206, I := 0x208 }).toNat =
      (State.pc { State.reset with pc := 0x206, I := 0x208 }).toNat + 2 ∧
    (State.I { State.reset with pc := 0x206, I := 0x208 }).toNat + (1 : Reg).val ≤ 4095 := by decide

theorem witness_ReturnUndoesTheCall :
    (State.stack { State.reset with stack := List.replicate 15 0x202 }).length < 16 := by decide

end Sys2Proof.Tests
end

section
/-! Obligation O12: an event issues at most one transaction or report (00_scope.md R7; 60_exceptions.md R146, R147).
The bound is shown of an instruction, of the instruction cycle, of each event, and then of the step. -/

namespace Sys2Proof.Machine

/-- From `s` to `t` the record of what the CORE issued grows by at most one entry. -/
def IssuesAtMostOne (s t : State) : Prop :=
  t.outputs = s.outputs ∨ ∃ tr, t.outputs = s.outputs ++ [tr]

section

variable {s t : State}

/-- Only `CLS`, `RND`, `DRW`, the key skips and `LD Vx,K` issue, each one transaction; a fault issues none (R143). -/
theorem exec_issuesAtMostOne {i : Instr} (h : exec i s = .next t) : IssuesAtMostOne s t := by
  cases i
  case cls | rnd | ldKey =>
    have e := next_inj h
    subst e
    exact .inr ⟨_, rfl⟩
  case drw =>
    rcases drwWith_cases h with ⟨_, _, rfl⟩ | ⟨_, rfl⟩
    · exact .inr ⟨_, rfl⟩
    · exact .inl rfl
  case skp | sknp =>
    rcases keySkipWith_cases h with ⟨_, _, rfl⟩ | ⟨_, rfl⟩
    · exact .inr ⟨_, skipIf_outputs _ _⟩
    · exact .inl rfl
  case ret => rcases execRet_cases h with ⟨_, _, rfl⟩ | ⟨_, rfl⟩ <;> exact .inl rfl
  case call => rcases execCall_cases h with ⟨_, rfl⟩ | ⟨_, rfl⟩ <;> exact .inl rfl
  case ldB | dump => rcases storeAtIndex_cases h with ⟨_, rfl⟩ | ⟨_, rfl⟩ <;> exact .inl rfl
  case load => rcases execLoad_cases h with ⟨_, rfl⟩ | ⟨_, rfl⟩ <;> exact .inl rfl
  all_goals
    have e := next_inj h
    subst e
    exact .inl (by simp)

/-- The no-op of an unrecognised word issues its report (R146), and a cycle that executes nothing issues nothing. -/
theorem runInstr_issuesAtMostOne (h : runInstr s = .next t) : IssuesAtMostOne s t := by
  rcases runInstr_cases h with
    ⟨_, rfl⟩ | ⟨_, _, rfl⟩ | ⟨_, _, _, _, ⟨_, _, hexec⟩ | ⟨_, rfl⟩⟩
  · exact .inl rfl
  · exact .inl rfl
  · exact exec_issuesAtMostOne hexec
  · exact .inr ⟨_, rfl⟩

/-- A rejected image issues its report (R147), an accepted one nothing (R161). -/
theorem loadProgram_issuesAtMostOne (image : List Byte) (s : State) :
    IssuesAtMostOne s (loadProgram image s) := by
  unfold loadProgram
  split
  · exact .inl (powerOn_outputs s)
  · exact .inr ⟨_, issue_outputs s _⟩

theorem applyEvent_issuesAtMostOne {e : Event} (h : applyEvent e s = .next t) : IssuesAtMostOne s t := by
  cases e with
  | step => exact runInstr_issuesAtMostOne h
  | tick => exact next_inj h ▸ .inl (tick_outputs s)
  | reset => exact next_inj h ▸ .inr ⟨.fbClear, rfl⟩
  | powerOn => exact next_inj h ▸ .inl (powerOn_outputs s)
  | loadProgram image => exact next_inj h ▸ loadProgram_issuesAtMostOne image s

end

/-- Settles O12: taking an event off the schedule leaves the record alone, and each event adds at most one entry. -/
theorem eachEventIssuesAtMostOneTransaction : Obligations.EachEventIssuesAtMostOneTransaction := by
  intro s t h
  rcases step_cases h with ⟨_, hrun⟩ | ⟨_, rest, _, hevent⟩
  · exact runInstr_issuesAtMostOne hrun
  · have hgrows : IssuesAtMostOne { s with schedule := rest } t := applyEvent_issuesAtMostOne hevent
    exact hgrows

end Sys2Proof.Machine
end

section
/-! Obligations O50 and O51: which instruction may change each piece of state (10_state.md R25, R10, R11). -/

namespace Sys2Proof.Machine

/-- Settles O50, instruction by instruction: a completed one is a composition of named operations, each of which says
what it leaves in every field, and a fault leaves all but the status registers (R143). -/
theorem onlyTheNamedInstructionsWriteEachState : Obligations.OnlyTheNamedInstructionsWriteEachState := by
  intro i s t h
  cases i
  case ret => rcases execRet_cases h with ⟨_, _, rfl⟩ | ⟨_, rfl⟩ <;> simp
  case call => rcases execCall_cases h with ⟨_, rfl⟩ | ⟨_, rfl⟩ <;> simp
  case drw => rcases drwWith_cases h with ⟨_, _, rfl⟩ | ⟨_, rfl⟩ <;> simp
  case skp | sknp => rcases keySkipWith_cases h with ⟨_, _, rfl⟩ | ⟨_, rfl⟩ <;> simp
  case ldB | dump => rcases storeAtIndex_cases h with ⟨_, rfl⟩ | ⟨_, rfl⟩ <;> simp
  case load => rcases execLoad_cases h with ⟨_, rfl⟩ | ⟨_, rfl⟩ <;> simp
  all_goals
    obtain rfl := next_inj h
    simp

/-- A register just written reads as the byte written (R10). -/
theorem reg_setReg_same (s : State) (r : Reg) (b : Byte) : (s.setReg r b).reg r = b := by
  rw [reg_setReg, if_pos rfl]

/-- A flag is 0 or 1 (R11). -/
theorem flagByte_eq_zero_or_one (b : Bool) : flagByte b = 0 ∨ flagByte b = 1 := by
  cases b
  · exact .inl rfl
  · exact .inr rfl

section

variable {i : Instr} {s t : State}

/-- An instruction writes no register but the destination it names and, as its flag, VF (R10, R11). -/
theorem exec_reg_eq_or_written (h : exec i s = .next t) (r : Reg) :
    t.reg r = s.reg r ∨ namesDestination i r = true ∨ (r = Reg.vf ∧ writesFlag i = true) := by
  cases i
  case ret => rcases execRet_cases h with ⟨_, _, rfl⟩ | ⟨_, rfl⟩ <;> exact .inl rfl
  case call => rcases execCall_cases h with ⟨_, rfl⟩ | ⟨_, rfl⟩ <;> exact .inl rfl
  case ldB | dump => rcases storeAtIndex_cases h with ⟨_, rfl⟩ | ⟨_, rfl⟩ <;> exact .inl rfl
  case skp | sknp =>
    rcases keySkipWith_cases h with ⟨_, _, rfl⟩ | ⟨_, rfl⟩
    · exact .inl (skipIf_reg _ _ _)
    · exact .inl rfl
  case drw =>
    rcases drwWith_cases h with ⟨_, _, rfl⟩ | ⟨_, rfl⟩
    · by_cases hr : r = Reg.vf <;> simp [hr, writesFlag]
    · exact .inl rfl
  case load x =>
    rcases execLoad_cases h with ⟨_, rfl⟩ | ⟨_, rfl⟩
    · by_cases hr : r ≤ x <;> simp [hr, namesDestination]
    · exact .inl rfl
  case or x _ | and x _ | xor x _ | addReg x _ | sub x _ | shr x _ | subn x _ | shl x _ =>
    obtain rfl := next_inj h
    by_cases hf : r = Reg.vf <;> by_cases hr : r = x <;> simp [hf, hr, namesDestination, writesFlag]
  case addI =>
    obtain rfl := next_inj h
    by_cases hf : r = Reg.vf <;> simp [hf, writesFlag]
  case ldImm x _ | addImm x _ | ldReg x _ | rnd x _ | ldFromDt x | ldKey x =>
    obtain rfl := next_inj h
    by_cases hr : r = x <;> simp [hr, namesDestination]
  all_goals
    obtain rfl := next_inj h
    exact .inl (by simp [State.reg])

/-- The flag is written last, so that it stands in VF also when VF is the destination (R101). -/
theorem exec_vf_eq_flagByte (h : exec i s = .next t) (hw : writesFlag i = true) (ht : t.status = .running) :
    ∃ f, t.reg Reg.vf = flagByte f := by
  cases i
  case drw =>
    rcases drwWith_cases h with ⟨_, c, rfl⟩ | ⟨_, rfl⟩
    · exact ⟨c, reg_setReg_same _ _ _⟩
    · cases ht
  case or | and | xor | addReg | sub | shr | subn | shl | addI =>
    obtain rfl := next_inj h
    exact ⟨_, reg_setReg_same _ _ _⟩
  all_goals cases hw

end

/-- Settles O51: a register that changed was written as destination or flag, and a flag written is 0 or 1. -/
theorem registersAreWrittenOnlyAsNamed : Obligations.RegistersAreWrittenOnlyAsNamed := by
  intro i s t h
  constructor
  · intro r hne
    exact (exec_reg_eq_or_written h r).resolve_left hne
  · intro hw _ ht
    obtain ⟨f, hf⟩ := exec_vf_eq_flagByte h hw ht
    rw [show t.reg 15 = flagByte f from hf]
    exact flagByte_eq_zero_or_one f

end Sys2Proof.Machine
end

section
/-! Obligations O45 and O47: the bounds of 10_state.md R22 hold after reset and every event keeps them. Of an
instruction they are shown piece by piece, from what O50 says of the instructions that may change each piece. -/

namespace Sys2Proof.Machine

/-- `NNN` is at most 0xFFF as a 16-bit value (R54). -/
theorem toNat_addrWord_le (nnn : Addr12) : (addrWord nnn).toNat ≤ 0xFFF := by
  have h := nnn.isLt
  simp only [addrWord, BitVec.toNat_setWidth]
  omega

/-- R22 (d): `JP V0,nnn` reaches at most 255 + 4095. -/
theorem toNat_offsetTarget_le (b : Byte) (nnn : Addr12) : (offsetTarget b nnn).toNat ≤ 0x10FE := by
  have hb := b.isLt
  have hn := nnn.isLt
  simp only [offsetTarget, BitVec.toNat_ofNat]
  omega

/-- R22 (a): `ADD I,Vx` takes a sum above 0xFFF modulo 4096 (R111). -/
theorem toNat_indexAfter_le (n : Nat) : (indexAfter n).toNat ≤ 0xFFF := by
  simp only [indexAfter, indexOverflow, decide_eq_true_eq, BitVec.toNat_ofNat]
  split <;> omega

/-- R38: the glyph of a byte is at most at 255 * 5. -/
theorem toNat_glyphAddress_le (d : Byte) : (glyphAddress d).toNat ≤ 0xFFF := by
  have h := d.isLt
  rw [glyphAddress, BitVec.toNat_ofNat]
  exact (Nat.mod_le _ _).trans (by omega)

section

variable {i : Instr} {s t : State}

/-- R22 (a): only three instructions write `I`, each a value in range. -/
theorem exec_index_le (hI : s.I.toNat ≤ 0xFFF) (h : exec i s = .next t) : t.I.toNat ≤ 0xFFF := by
  by_cases hsame : t.I = s.I
  · rwa [hsame]
  · obtain ⟨-, -, hwrites, -⟩ := onlyTheNamedInstructionsWriteEachState i s t h
    rcases hwrites hsame with ⟨nnn, rfl⟩ | ⟨x, rfl⟩ | ⟨x, rfl⟩ <;> obtain rfl := next_inj h
    · exact toNat_addrWord_le nnn
    · exact toNat_indexAfter_le _
    · exact toNat_glyphAddress_le _

/-- The stack as R22 (c) bounds it. -/
def StackBounded (stack : List Word) : Prop := stack.length ≤ stackDepth ∧ ∀ a ∈ stack, a.toNat ≤ 0x1000

/-- R22 (c): a return only removes an entry, and a call pushes the address after its own, on a stack that is not
full. -/
theorem exec_stackBounded (hstack : StackBounded s.stack) (hpc : s.pc.toNat ≤ 4094) (h : exec i s = .next t) :
    StackBounded t.stack := by
  by_cases hsame : t.stack = s.stack
  · rwa [hsame]
  · obtain ⟨-, -, -, hwrites, -⟩ := onlyTheNamedInstructionsWriteEachState i s t h
    obtain ⟨hdepth, hentries⟩ := hstack
    rcases hwrites hsame with rfl | ⟨nnn, rfl⟩
    · rcases execRet_cases h with ⟨_, _, rfl⟩ | ⟨_, rfl⟩
      · refine ⟨?_, fun a ha => hentries a (List.mem_of_mem_dropLast ha)⟩
        rw [jump_stack, popped_stack, List.length_dropLast]
        omega
      · exact absurd rfl hsame
    · rcases execCall_cases h with ⟨hroom, rfl⟩ | ⟨_, rfl⟩
      · refine ⟨by simpa [State.stackFull] using hroom, fun a ha => ?_⟩
        rcases List.mem_append.mp ha with hold | hnew
        · exact hentries a hold
        · rw [List.mem_singleton.mp hnew]
          bv_omega
      · exact absurd rfl hsame

/-- A block store that passed the range check keeps the canonical form (R36, R46). -/
theorem wf_writeBytes_of_inRange {bytes : List Byte} (hm : s.memory.wf = true)
    (hin : s.inRange bytes.length = true) : (s.memory.writeBytes s.I.toNat bytes).wf = true := by
  rcases inRange_iff.mp hin with hnone | hlast
  · rw [List.length_eq_zero_iff.mp hnone]
    exact hm
  · cases bytes with
    | nil => exact hm
    | cons b bs => exact wf_writeBytes hm _ _ (by simp only [List.length_cons, Config.memSize] at hlast ⊢; omega)

/-- A block store keeps memory in its canonical form, whether it stores every byte or faults (R46). -/
theorem storeAtIndex_memory_wf {bytes : List Byte} (hm : s.memory.wf = true) (h : storeAtIndex bytes s = .next t) :
    t.memory.wf = true := by
  rcases storeAtIndex_cases h with ⟨hin, rfl⟩ | ⟨_, rfl⟩
  · exact wf_writeBytes_of_inRange hm hin
  · exact hm

/-- R36: the only instructions that write memory are block stores. -/
theorem exec_memory_wf (hm : s.memory.wf = true) (h : exec i s = .next t) : t.memory.wf = true := by
  by_cases hsame : t.memory = s.memory
  · rwa [hsame]
  · obtain ⟨-, -, -, -, hwrites, -⟩ := onlyTheNamedInstructionsWriteEachState i s t h
    rcases hwrites hsame with ⟨x, rfl⟩ | ⟨x, rfl⟩ <;> exact storeAtIndex_memory_wf hm h

/-- A skip moves `pc` on by 2 at most, past the next instruction (41_skip.md). -/
theorem toNat_skipIf_pc_le (s : State) (c : Bool) : (s.skipIf c).pc.toNat ≤ s.pc.toNat + 2 := by
  rw [skipIf_pc]
  split
  · bv_omega
  · omega

/-- R22 (d): from an address that a fetch accepts, `pc` moves on by 2 or 4, or to a target in range, or stays with a
fault. -/
theorem exec_pc_le (hentries : ∀ a ∈ s.stack, a.toNat ≤ 0x1000) (hpc : s.pc.toNat ≤ 4094)
    (hrun : s.status = .running) (h : exec i s = .next t) : t.pc.toNat ≤ 0x10FE := by
  have hstays : s.pc.toNat ≤ 0x10FE := hpc.trans (by decide)
  have hskips : s.advance.pc.toNat + 2 ≤ 0x10FE := by
    rw [advance_pc]
    bv_omega
  rcases exec_fault_or_runs h with ⟨c, info, rfl⟩ | ⟨hstatus, -⟩
  · exact hstays
  by_cases hnext : t.pc = s.pc + 2
  · rw [hnext]
    exact (Nat.le_add_right _ 2).trans hskips
  obtain ⟨-, -, -, -, -, hmoves, -⟩ := onlyTheNamedInstructionsWriteEachState i s t h
  cases i
  case ret =>
    rcases execRet_cases h with ⟨a, htop, rfl⟩ | ⟨_, rfl⟩
    · exact (hentries a (List.mem_of_getLast? htop)).trans (by decide)
    · exact hstays
  case call nnn =>
    rcases execCall_cases h with ⟨_, rfl⟩ | ⟨_, rfl⟩
    · exact (toNat_addrWord_le nnn).trans (by decide)
    · exact hstays
  case jp nnn =>
    obtain rfl := next_inj h
    exact (toNat_addrWord_le nnn).trans (by decide)
  case jpV0 nnn =>
    obtain rfl := next_inj h
    exact toNat_offsetTarget_le (s.reg 0) nnn
  case seImm | sneImm | seReg | sneReg =>
    obtain rfl := next_inj h
    exact (toNat_skipIf_pc_le _ _).trans hskips
  case skp | sknp =>
    rcases keySkipWith_cases h with ⟨_, down, rfl⟩ | ⟨_, rfl⟩
    · exact (toNat_skipIf_pc_le _ _).trans hskips
    · exact hstays
  all_goals exact absurd (hmoves hnext) (by simp [hstatus, hrun])

/-- The bounds do not speak of the timers, of the record of what was issued, or of the schedule. -/
theorem Inv.of_timers_outputs_schedule (hs : Inv s) (dt st : Byte) (outputs : List Transaction)
    (schedule : List Event) : Inv { s with dt := dt, st := st, outputs := outputs, schedule := schedule } :=
  { hs with }

/-- The bounds hold of every state with the initial registers of R24. -/
theorem inv_of_initialRegisters (h : InitialRegisters t) (hm : t.memory.wf = true) : Inv t := by
  obtain ⟨-, hI, hpc, hstack, -, -, hstatus, hcause, hinfo⟩ := h
  constructor <;> simp [hI, hpc, hstack, hstatus, hcause, hinfo, hm]

/-- A fault changes the status registers alone, and gives them the code of its cause (R141, R143). -/
theorem Inv.of_fault (hs : Inv s) (c : Fault) (info : Word) :
    Inv { s with status := .faulted, faultCause := c.code, faultInfo := info } :=
  { hs with running := nofun, faulted := fun _ => code_range c }

/-- An instruction run from a fetchable address keeps the bounds. -/
theorem exec_inv (hs : Inv s) (hrun : s.status = .running) (hpc : s.pc.toNat ≤ 4094) (h : exec i s = .next t) :
    Inv t := by
  rcases exec_fault_or_runs h with ⟨c, info, rfl⟩ | ⟨hstatus, hcause, hinfo, -⟩
  · exact hs.of_fault c info
  · obtain ⟨hdepth, hentries⟩ := exec_stackBounded ⟨hs.depth, hs.entries⟩ hpc h
    exact {
      index := exec_index_le hs.index h
      depth := hdepth
      entries := hentries
      pcBound := exec_pc_le hs.entries hpc hrun h
      memory := exec_memory_wf hs.memory h
      running := by rw [hstatus, hcause, hinfo]; exact hs.running
      faulted := by rw [hstatus, hcause]; exact hs.faulted }

/-- The instruction cycle keeps the bounds: it faults before a fetch above 4094, and the no-op moves `pc` on by 2. -/
theorem runInstr_inv (hs : Inv s) (h : runInstr s = .next t) : Inv t := by
  rcases runInstr_cases h with
    ⟨_, rfl⟩ | ⟨_, _, rfl⟩ | ⟨hrun, hpc, _, _, ⟨_, _, hexec⟩ | ⟨_, rfl⟩⟩
  · exact hs
  · exact hs.of_fault .fetchRange s.pc
  · exact exec_inv hs hrun hpc hexec
  · have hpc' : (s.pc + 2).toNat ≤ 0x10FE := by bv_omega
    exact { hs with pcBound := hpc' }

theorem initialRegisters_initRegisters (s : State) : InitialRegisters (initRegisters s) := by
  simp [InitialRegisters]

/-- An accepted image lies in 512..4095 (R161); a rejected one changes the record alone (R162). -/
theorem loadProgram_inv (image : List Byte) (hs : Inv s) : Inv (loadProgram image s) := by
  unfold loadProgram
  split
  · rename_i hfits
    have hlength : image.length ≤ Config.maxProg := of_decide_eq_true hfits
    have hroom : Config.progBase + image.length ≤ Config.memSize := by
      simp only [Config.progBase, Config.maxProg, Config.memSize] at hlength ⊢
      omega
    exact inv_of_initialRegisters (initialRegisters_initRegisters s) (wf_writeBytes wf_nil _ image hroom)
  · exact hs.of_timers_outputs_schedule ..

theorem applyEvent_inv {e : Event} (hs : Inv s) (h : applyEvent e s = .next t) : Inv t := by
  cases e with
  | step => exact runInstr_inv hs h
  | tick => exact next_inj h ▸ hs.of_timers_outputs_schedule ..
  | reset => exact next_inj h ▸ inv_of_initialRegisters (initialRegisters_initRegisters s) hs.memory
  | powerOn => exact next_inj h ▸ inv_of_initialRegisters (initialRegisters_initRegisters s) wf_nil
  | loadProgram image => exact next_inj h ▸ loadProgram_inv image hs

end

/-- Settles O45: taking an event off the schedule does not touch the bounds, and each event keeps them. -/
theorem eventsKeepTheInvariant : Obligations.EventsKeepTheInvariant := by
  intro s t hs h
  rcases step_cases h with ⟨_, hrun⟩ | ⟨e, rest, _, hevent⟩
  · exact runInstr_inv hs hrun
  · have hs' : Inv { s with schedule := rest } := hs.of_timers_outputs_schedule ..
    exact applyEvent_inv hs' hevent

/-- Settles O47: the reset state has the registers of R24, and nothing listed in memory. -/
theorem resetHasTheInvariant : Obligations.ResetHasTheInvariant := by
  have hinit : InitialRegisters State.reset := initialRegisters_initRegisters State.reset
  exact ⟨inv_of_initialRegisters hinit reset_memory_wf, nofun, hinit⟩

end Sys2Proof.Machine
end

section
/-! Obligation O52: the sound timer influences nothing (10_state.md R18). Giving a state another ST commutes with
every operation but `LD ST,Vx`, which overwrites it. -/

namespace Sys2Proof.Machine

/-- The state with another sound timer. -/
def State.withSt (b : Byte) (s : State) : State := { s with st := b }

/-- The outcome with another sound timer in its next state. -/
def outWithSt (b : Byte) : Out → Out
  | .next s => .next (s.withSt b)
  | .fault r => .fault r
  | .refused r => .refused r

section

variable {i : Instr} {s t : State} (b : Byte)

theorem skipIf_withSt (c : Bool) (s : State) : (s.withSt b).skipIf c = (s.skipIf c).withSt b := by
  cases c <;> rfl

theorem storeAtIndex_withSt (bytes : List Byte) (s : State) :
    storeAtIndex bytes (s.withSt b) = outWithSt b (storeAtIndex bytes s) := by
  rw [storeAtIndex, storeAtIndex, apply_ite (outWithSt b)]
  rfl

theorem execLoad_withSt (x : Reg) (s : State) : execLoad x (s.withSt b) = outWithSt b (execLoad x s) := by
  rw [execLoad, execLoad, apply_ite (outWithSt b)]
  rfl

theorem execCall_withSt (nnn : Addr12) (s : State) : execCall nnn (s.withSt b) = outWithSt b (execCall nnn s) := by
  rw [execCall, execCall, apply_ite (outWithSt b)]
  rfl

theorem drwWith_withSt (answer : Bool) (x y : Reg) (n : Nibble) (s : State) :
    drwWith answer x y n (s.withSt b) = outWithSt b (drwWith answer x y n s) := by
  rw [drwWith, drwWith, apply_ite (outWithSt b)]
  rfl

theorem keySkipWith_withSt (answers : BitVec 16) (wanted : Bool) (x : Reg) (s : State) :
    keySkipWith answers wanted x (s.withSt b) = outWithSt b (keySkipWith answers wanted x s) := by
  rw [keySkipWith, keySkipWith, apply_ite (outWithSt b)]
  simp only [outWithSt, ← skipIf_withSt]
  rfl

theorem execRet_withSt (s : State) : execRet (s.withSt b) = outWithSt b (execRet s) := by
  have hsame : (s.withSt b).stack = s.stack := rfl
  unfold execRet
  rw [hsame]
  split <;> rfl

/-- An instruction other than `LD ST,Vx` carries ST through (R122). -/
theorem exec_withSt (hi : ∀ x, i ≠ .ldToSt x) (s : State) : exec i (s.withSt b) = outWithSt b (exec i s) := by
  cases i
  case ret => exact execRet_withSt b s
  case call nnn => exact execCall_withSt b nnn s
  case drw x y n => exact drwWith_withSt b _ x y n s
  case skp x | sknp x => exact keySkipWith_withSt b _ _ x s
  case ldB | dump => exact storeAtIndex_withSt b _ s
  case load x => exact execLoad_withSt b x s
  case seImm | sneImm | seReg | sneReg => exact congrArg Host.Outcome.next (skipIf_withSt b _ s.advance)
  case ldToSt x => exact absurd rfl (hi x)
  all_goals rfl

/-- States that differ in ST alone lead to states that differ in ST alone: `LD ST,Vx` makes them equal. -/
theorem exec_next_withSt (h : exec i s = .next t) : ∃ c, exec i (s.withSt b) = .next (t.withSt c) := by
  by_cases hi : ∃ x, i = .ldToSt x
  · obtain ⟨x, rfl⟩ := hi
    obtain rfl := next_inj h
    exact ⟨s.reg x, rfl⟩
  · rw [exec_withSt b (not_exists.mp hi) s, h]
    exact ⟨b, rfl⟩

theorem runInstr_next_withSt (h : runInstr s = .next t) : ∃ c, runInstr (s.withSt b) = .next (t.withSt c) := by
  rcases runInstr_cases h with
    ⟨hf, rfl⟩ | ⟨hrun, hpc, rfl⟩ | ⟨hrun, _, w, hfetch, ⟨i, hdecode, hexec⟩ | ⟨hdecode, rfl⟩⟩
  · exact ⟨b, runInstr_of_faulted hf⟩
  · exact ⟨b, runInstr_of_pc_gt hrun hpc⟩
  · obtain ⟨c, hc⟩ := exec_next_withSt b hexec
    exact ⟨c, (runInstr_of_decode (s := s.withSt b) hrun hfetch hdecode).trans hc⟩
  · exact ⟨b, runInstr_of_error hrun hfetch hdecode⟩

/-- An accepted image overwrites ST as it does every register (R161); a rejected one carries it through (R162). -/
theorem loadProgram_withSt (image : List Byte) (s : State) :
    ∃ c, loadProgram image (s.withSt b) = (loadProgram image s).withSt c := by
  unfold loadProgram
  split
  · exact ⟨0, rfl⟩
  · exact ⟨b, rfl⟩

theorem applyEvent_next_withSt {e : Event} (h : applyEvent e s = .next t) :
    ∃ c, applyEvent e (s.withSt b) = .next (t.withSt c) := by
  cases e with
  | step => exact runInstr_next_withSt b h
  | tick => exact next_inj h ▸ ⟨countDown b, rfl⟩
  | reset => exact next_inj h ▸ ⟨0, rfl⟩
  | powerOn => exact next_inj h ▸ ⟨0, rfl⟩
  | loadProgram image =>
    obtain ⟨c, hc⟩ := loadProgram_withSt b image s
    exact next_inj h ▸ ⟨c, congrArg Host.Outcome.next hc⟩

end

/-- Settles O52: the schedule does not hold ST, and each event carries the difference in ST on or removes it. -/
theorem soundTimerInfluencesNothing : Obligations.SoundTimerInfluencesNothing := by
  intro s t b h
  rcases step_cases h with ⟨hnone, hrun⟩ | ⟨e, rest, hhead, hevent⟩
  · obtain ⟨c, hc⟩ := runInstr_next_withSt b hrun
    exact ⟨c, (step_of_empty (s := s.withSt b) hnone).trans hc⟩
  · obtain ⟨c, hc⟩ := applyEvent_next_withSt b hevent
    exact ⟨c, (step_of_cons (s := s.withSt b) hhead).trans hc⟩

end Sys2Proof.Machine
end

section
/-! Obligation O1: a `Step` of the running machine is the meaning of the instruction decoded at `pc` (10_state.md R26,
R14). -/

namespace Sys2Proof.Machine

/-- Settles O1: the fetch does not read the schedule, so the cycle meets the same word with the event taken off. -/
theorem stepRunsTheDecodedInstruction : Obligations.StepRunsTheDecodedInstruction := by
  intro s w i hrun hfetch hdecode
  constructor
  · intro hempty
    exact (step_of_empty hempty).trans (runInstr_of_decode hrun hfetch hdecode)
  · intro rest hhead
    exact (step_of_cons hhead).trans (runInstr_of_decode hrun hfetch hdecode)

end Sys2Proof.Machine
end

section
/-! Obligation O48: every event keeps memory in its canonical form (20_memory.md R36, R46; 70_reset_and_hazards.md
R161), whatever the other registers hold. -/

namespace Sys2Proof.Machine

section

variable {s t : State}

/-- Only the meaning of a decoded instruction can write memory in a cycle. -/
theorem runInstr_memory_wf (hm : s.memory.wf = true) (h : runInstr s = .next t) : t.memory.wf = true := by
  rcases runInstr_cases h with
    ⟨_, rfl⟩ | ⟨_, _, rfl⟩ | ⟨_, _, _, _, ⟨_, _, hexec⟩ | ⟨_, rfl⟩⟩
  · exact hm
  · exact hm
  · exact exec_memory_wf hm hexec
  · exact hm

/-- An accepted image ends at or below the end of memory when placed from 512 up (R161). -/
theorem progBase_add_length_le {image : List Byte} (h : imageFits image = true) :
    Config.progBase + image.length ≤ Config.memSize :=
  Nat.add_le_add_left (of_decide_eq_true h) Config.progBase

/-- An accepted image is written over power-on memory (R161), a rejected one leaves memory alone (R162). -/
theorem loadProgram_memory_wf (image : List Byte) (hm : s.memory.wf = true) :
    (loadProgram image s).memory.wf = true := by
  unfold loadProgram
  split
  · exact wf_writeBytes wf_nil _ image (progBase_add_length_le ‹_›)
  · exact hm

theorem applyEvent_memory_wf {e : Event} (hm : s.memory.wf = true) (h : applyEvent e s = .next t) :
    t.memory.wf = true := by
  cases e with
  | step => exact runInstr_memory_wf hm h
  | tick | reset => exact next_inj h ▸ hm
  | powerOn => exact next_inj h ▸ wf_nil
  | loadProgram image => exact next_inj h ▸ loadProgram_memory_wf image hm

end

/-- Settles O48: taking an event off the schedule leaves memory alone, and each event keeps the form. -/
theorem eventsKeepMemoryCanonical : Obligations.EventsKeepMemoryCanonical := by
  intro s t hm h
  rcases step_cases h with ⟨_, hrun⟩ | ⟨e, rest, _, hevent⟩
  · exact runInstr_memory_wf hm hrun
  · exact applyEvent_memory_wf (s := { s with schedule := rest }) hm hevent

end Sys2Proof.Machine
end

section
/-! Obligation O49: memory in canonical form is determined by what it reads as (20_memory.md R30, R45). The first
listed address is the lowest one that reads otherwise than after `PowerOn`. -/

namespace Sys2Proof.Machine

section

variable {lo lo' k k' : Nat} {b b' : Byte} {m m' : Memory}

theorem read_cons_same (k : Nat) (b : Byte) (m : Memory) : Memory.read ((k, b) :: m) k = b := by
  rw [Memory.read, if_pos rfl]

theorem read_cons_of_lt {a : Nat} (b : Byte) (m : Memory) (h : k < a) : Memory.read ((k, b) :: m) a = m.read a := by
  rw [Memory.read, if_neg h.ne]

/-- The first cell of a canonical memory is seen by a read. -/
theorem read_head_ne_unlisted (hm : Memory.wfFrom lo ((k, b) :: m) = true) :
    Memory.read ((k, b) :: m) k ≠ unlisted k := by
  obtain ⟨-, -, hne, -⟩ := wfFrom_cons.mp hm
  rwa [read_cons_same]

/-- Below the first cell of a canonical memory a read sees no cell. -/
theorem read_below_head {a : Nat} (hm : Memory.wfFrom lo ((k, b) :: m) = true) (h : a < k) :
    Memory.read ((k, b) :: m) a = unlisted a := by
  obtain ⟨-, hrest⟩ := wfFrom_cons.mp hm
  exact read_below (wfFrom_cons.mpr ⟨le_rfl, hrest⟩) h

/-- The first cell of one canonical memory is no lower than that of another that reads alike. -/
theorem head_le_of_reads_alike (hm : Memory.wfFrom lo ((k, b) :: m) = true)
    (hm' : Memory.wfFrom lo' ((k', b') :: m') = true)
    (h : ∀ a, Memory.read ((k, b) :: m) a = Memory.read ((k', b') :: m') a) : k' ≤ k := by
  by_contra hlt
  exact read_head_ne_unlisted hm ((h k).trans (read_below_head hm' (not_le.mp hlt)))

/-- Behind equal first addresses, the rests of canonical memories that read alike read alike. -/
theorem tails_read_alike (hm : Memory.wfFrom lo ((k, b) :: m) = true)
    (hm' : Memory.wfFrom lo' ((k, b') :: m') = true)
    (h : ∀ a, Memory.read ((k, b) :: m) a = Memory.read ((k, b') :: m') a) (a : Nat) : m.read a = m'.read a := by
  obtain ⟨-, -, -, hrest⟩ := wfFrom_cons.mp hm
  obtain ⟨-, -, -, hrest'⟩ := wfFrom_cons.mp hm'
  rcases Nat.lt_or_ge k a with hlt | hge
  · rw [← read_cons_of_lt b m hlt, ← read_cons_of_lt b' m' hlt, h a]
  · rw [read_below hrest (Nat.lt_succ_of_le hge), read_below hrest' (Nat.lt_succ_of_le hge)]

/-- Two lists in canonical form that read alike agree cell by cell. -/
theorem eq_of_reads_alike (hm : m.wfFrom lo = true) (hm' : m'.wfFrom lo' = true) (h : ∀ a, m.read a = m'.read a) :
    m = m' := by
  induction m generalizing lo lo' m' with
  | nil =>
    cases m' with
    | nil => rfl
    | cons c' m' => exact absurd (h c'.1).symm (read_head_ne_unlisted hm')
  | cons c m ih =>
    obtain ⟨k, b⟩ := c
    cases m' with
    | nil => exact absurd (h k) (read_head_ne_unlisted hm)
    | cons c' m' =>
      obtain ⟨k', b'⟩ := c'
      obtain rfl : k = k' :=
        le_antisymm (head_le_of_reads_alike hm' hm fun a => (h a).symm) (head_le_of_reads_alike hm hm' h)
      obtain rfl : b = b' := by simpa only [read_cons_same] using h k
      obtain ⟨-, -, -, hrest⟩ := wfFrom_cons.mp hm
      obtain ⟨-, -, -, hrest'⟩ := wfFrom_cons.mp hm'
      rw [ih hrest hrest' (tails_read_alike hm hm' h)]

end

/-- Settles O49: the case of the canonical form from address 0 up. -/
theorem canonicalMemoriesReadingAlikeAreEqual : Obligations.CanonicalMemoriesReadingAlikeAreEqual := by
  intro m m' hm hm' h
  exact eq_of_reads_alike hm hm' h

end Sys2Proof.Machine
end

section
/-! Obligations O2 and O54: what a fetch reads (20_memory.md R33), also where the instruction before it has stored
(R43). -/

namespace Sys2Proof.Machine

/-- The word of a fetch in the shift form of R33; `toNat_wordOfBytes` is the sum form. -/
theorem toNat_wordOfBytes_eq_shiftLeft_or (high low : Byte) :
    (wordOfBytes high low).toNat = high.toNat <<< 8 ||| low.toNat :=
  BitVec.toNat_append ..

/-- Settles O2: the range check precedes both reads, and a due `Step` meets the same `pc` with the event taken off. -/
theorem fetchIsBigEndianAndRangeChecked : Obligations.FetchIsBigEndianAndRangeChecked := by
  intro s
  constructor
  · intro hle
    exact ⟨_, fetch_of_le hle, toNat_wordOfBytes_eq_shiftLeft_or _ _⟩
  · intro hgt
    refine ⟨fetch_of_gt hgt, fun hrun u hdue => ?_⟩
    rw [step_of_due hdue, hdue.eq]
    exact runInstr_of_pc_gt hrun hgt

section

variable {s : State} {x : Reg}

/-- A dump that ends at or below 4095 completes (R114). -/
theorem exec_dump_of_le (h : s.I.toNat + x.val ≤ 4095) :
    exec (.dump x) s = .next { s.advance with memory := s.memory.writeBytes s.I.toNat (s.regsUpTo x) } := by
  have hin : s.inRange (s.regsUpTo x).length = true := by
    rw [length_regsUpTo, inRange_iff]
    exact .inr h
  exact storeAtIndex_of_inRange hin

/-- After a dump of V0..VX, register `r` of them stands at `I + r` (R114). -/
theorem read_dumped (hm : s.memory.wf = true) (h : s.I.toNat + x.val ≤ 4095) {r : Reg} (hr : r ≤ x) :
    (s.memory.writeBytes s.I.toNat (s.regsUpTo x)).read (s.I.toNat + r.val) = s.reg r := by
  have hroom : s.I.toNat + (s.regsUpTo x).length ≤ Config.memSize := by
    rw [length_regsUpTo]
    exact Nat.succ_le_succ h
  rw [read_writeBytes hm _ _ hroom, if_pos (Nat.le_add_right _ _), Nat.add_sub_cancel_left, getElem?_regsUpTo hr,
    Option.getD_some]

end

/-- Settles O54: the advanced `pc` is `I`, so the fetch reads the two bytes the dump stored first. -/
theorem storeIsSeenByTheNextFetch : Obligations.StoreIsSeenByTheNextFetch := by
  intro s x hm hx hnext hlast
  have hpc : (s.pc + 2).toNat = s.I.toNat := by bv_omega
  have hhigh := read_dumped hm hlast (Fin.zero_le x)
  have hlow := read_dumped hm hlast (r := 1) hx
  refine ⟨_, _, exec_dump_of_le hlast, fetch_of_le ?_, ?_⟩
  · rw [advance_pc, hpc]
    omega
  · rw [toNat_wordOfBytes, advance_pc, hpc, ← hhigh, ← hlow]
    rfl

end Sys2Proof.Machine
end

section
/-! Obligations O14 and O15: the decoder and the encoder are inverse to each other, but for the nibble that groups 5 and
9 ignore (30_encoding.md R52 to R60). -/

namespace Sys2Proof

section

variable {w : Word} {i : Instr}

/-! ## The decoder on the groups whose function is in the low bits (R56) -/

theorem decodeWord_of_group0 (hg : fieldG w = 0x0#4) : decodeWord w = decodeGroup0 w := by
  rw [decodeWord, hg]
  rfl

theorem decodeWord_of_group8 (hg : fieldG w = 0x8#4) : decodeWord w = decodeGroup8 w := by
  rw [decodeWord, hg]
  rfl

theorem decodeWord_of_groupE (hg : fieldG w = 0xE#4) : decodeWord w = decodeGroupE w := by
  rw [decodeWord, hg]
  rfl

theorem decodeWord_of_groupF (hg : fieldG w = 0xF#4) : decodeWord w = decodeGroupF w := by
  rw [decodeWord, hg]
  rfl

/-! ## Decoding after encoding -/

/-- The operand types already hold the widths of R51 (log entry 16). -/
theorem wellFormed_eq_true (i : Instr) : i.wellFormed = true := by
  cases i <;> simp [Instr.wellFormed, Laws.regFits_reg, Laws.fieldFits_bits]

/-- The group digit selects the instruction, with the function bits in groups 8, E and F, and the fields of the word are
the operands. -/
theorem decodeWord_encode (i : Instr) : decodeWord (encode i) = .ok i := by
  cases i
  case cls | ret => rfl
  case ldReg | or | and | xor | addReg | sub | shr | subn | shl =>
    rw [encode, decodeWord_of_group8 (fieldG_formRRN _ _ _ _)]
    simp [decodeGroup8]
  case skp | sknp =>
    rw [encode, decodeWord_of_groupE (fieldG_formRI _ _ _)]
    simp [decodeGroupE]
  case ldFromDt | ldKey | ldToDt | ldToSt | addI | ldF | ldB | dump | load =>
    rw [encode, decodeWord_of_groupF (fieldG_formRI _ _ _)]
    simp [decodeGroupF]
  all_goals simp [encode, decodeWord]

/-- Two bytes decode as their word, and the bytes after them are left (R33, R50). -/
theorem decodeBytes_highByte_lowByte (h : decodeWord w = .ok i) (rest : List Byte) :
    decodeBytes (highByte w :: lowByte w :: rest) = .ok (i, rest) := by
  rw [decodeBytes, wordOfBytes_high_low, h]

/-! ## Encoding after decoding -/

theorem encode_of_decodeGroup0 (hg : fieldG w = 0x0#4) (h : decodeGroup0 w = .ok i) : encode i = w := by
  rw [← formA_fields w, hg]
  unfold decodeGroup0 at h
  split at h <;> cases h <;> simp [encode, *]

theorem encode_of_decodeGroup8 (hg : fieldG w = 0x8#4) (h : decodeGroup8 w = .ok i) : encode i = w := by
  rw [← formRRN_fields w, hg]
  unfold decodeGroup8 at h
  split at h <;> cases h <;> simp [encode, *]

theorem encode_of_decodeGroupE (hg : fieldG w = 0xE#4) (h : decodeGroupE w = .ok i) : encode i = w := by
  rw [← formRI_fields w, hg]
  unfold decodeGroupE at h
  split at h <;> cases h <;> simp [encode, *]

theorem encode_of_decodeGroupF (hg : fieldG w = 0xF#4) (h : decodeGroupF w = .ok i) : encode i = w := by
  rw [← formRI_fields w, hg]
  unfold decodeGroupF at h
  split at h <;> cases h <;> simp [encode, *]

/-- Clearing the low nibble keeps the other three fields. -/
theorem and_FFF0 (w : Word) : w &&& 0xFFF0#16 = formRRN (fieldG w) (fieldX w) (fieldY w) 0x0#4 := by
  conv_lhs => rw [← formRRN_fields w]
  change (_ ++ fieldN w) &&& (BitVec.allOnes 12 ++ 0x0#4) = _
  rw [BitVec.and_append, BitVec.and_allOnes, BitVec.and_zero]
  rfl

theorem canonicalWord_of_group5_or_9 (h : fieldG w = 0x5#4 ∨ fieldG w = 0x9#4) :
    canonicalWord w = formRRN (fieldG w) (fieldX w) (fieldY w) 0x0#4 := by
  rw [canonicalWord, if_pos h, and_FFF0]

theorem canonicalWord_of_other_group (h : ¬(fieldG w = 0x5#4 ∨ fieldG w = 0x9#4)) : canonicalWord w = w :=
  if_neg h

/-- A word that decodes is put together again from the fields its instruction took; groups 5 and 9 take all but the low
nibble. -/
theorem encode_of_decodeWord (h : decodeWord w = .ok i) : encode i = canonicalWord w := by
  unfold decodeWord at h
  split at h
  case h_17 => cases h
  case h_6 hg | h_10 hg =>
    cases h
    rw [canonicalWord_of_group5_or_9 (by simp [hg]), hg]
    rfl
  all_goals rw [canonicalWord_of_other_group (by simp [*])]
  case h_1 hg => exact encode_of_decodeGroup0 hg h
  case h_9 hg => exact encode_of_decodeGroup8 hg h
  case h_15 hg => exact encode_of_decodeGroupE hg h
  case h_16 hg => exact encode_of_decodeGroupF hg h
  case h_2 hg | h_3 hg | h_11 hg | h_12 hg =>
    cases h
    rw [encode, ← hg, formA_fields]
  case h_4 hg | h_5 hg | h_7 hg | h_8 hg | h_13 hg =>
    cases h
    rw [encode, ← hg, formRI_fields]
  case h_14 hg =>
    cases h
    rw [encode, ← hg, formRRN_fields]

end

/-- Settles O14: the bytes of an instruction are those of its word, which decodes to it. -/
theorem decodeOfEncodeIsTheInstruction : Obligations.DecodeOfEncodeIsTheInstruction := by
  intro i rest
  exact ⟨wellFormed_eq_true i, decodeWord_encode i, decodeBytes_highByte_lowByte (decodeWord_encode i) rest⟩

/-- Settles O15, group by group. -/
theorem encodeOfDecodeIsTheCanonicalWord : Obligations.EncodeOfDecodeIsTheCanonicalWord := by
  intro w i h
  exact encode_of_decodeWord h

end Sys2Proof
end

section
/-! Obligations O16 and O17: the decoder selects by the mask and match columns of the opcode map, and rejects the words
that no row selects (30_encoding.md R55, R57). -/

namespace Sys2Proof.Machine

/-! ## The rows decode -/

section

variable {v : Word} {f : Word → Instr}

/-- Under the mask of group 0 a row selects one word. -/
theorem rowDecodes_of_word (h : decodeWord v = .ok (f v)) : RowDecodes v 0xFFFF f := by
  intro w hw
  obtain rfl : w = v := (and_FFFF w).symm.trans hw
  exact h

/-- Under the group mask a row selects by the group digit. -/
theorem rowDecodes_of_group (h : ∀ w, fieldG w = fieldG v → decodeWord w = .ok (f w)) : RowDecodes v 0xF000 f :=
  fun w hw => h w (fieldG_of_mask_F000 hw)

/-- Under the mask of group 8 a row selects by the group digit and the low nibble. -/
theorem rowDecodes_of_lowNibble
    (h : ∀ w, fieldG w = fieldG v → fieldN w = fieldN v → decodeWord w = .ok (f w)) : RowDecodes v 0xF00F f :=
  fun w hw => (fieldGN_of_mask_F00F hw).elim (h w)

/-- Under the mask of groups E and F a row selects by the group digit and the low byte. -/
theorem rowDecodes_of_lowByte
    (h : ∀ w, fieldG w = fieldG v → fieldNN w = fieldNN v → decodeWord w = .ok (f w)) : RowDecodes v 0xF0FF f :=
  fun w hw => (fieldGNN_of_mask_F0FF hw).elim (h w)

end

theorem rowDecodes_of_mem_opcodeRowsA : ∀ r ∈ opcodeRowsA, RowDecodes r.value r.mask r.instr := by
  simp only [opcodeRowsA, List.forall_mem_cons]
  refine ⟨rowDecodes_of_word rfl, rowDecodes_of_word rfl, ?_, ?_, ?_, ?_, ?_, ?_, ?_, nofun⟩
  all_goals
    refine rowDecodes_of_group fun w hg => ?_
    rw [decodeWord, hg]
    rfl

theorem rowDecodes_of_mem_opcodeRowsB : ∀ r ∈ opcodeRowsB, RowDecodes r.value r.mask r.instr := by
  simp only [opcodeRowsB, List.forall_mem_cons]
  refine ⟨?_, ?_, ?_, ?_, ?_, ?_, ?_, ?_, ?_, nofun⟩
  all_goals
    refine rowDecodes_of_lowNibble fun w hg hn => ?_
    rw [decodeWord_of_group8 hg, decodeGroup8, hn]
    rfl

theorem rowDecodes_of_mem_opcodeRowsC : ∀ r ∈ opcodeRowsC, RowDecodes r.value r.mask r.instr := by
  simp only [opcodeRowsC, List.forall_mem_cons]
  refine ⟨?_, ?_, ?_, ?_, ?_, rowDecodes_of_lowByte fun w hg hnn => ?_,
    rowDecodes_of_lowByte fun w hg hnn => ?_, nofun⟩
  case refine_6 | refine_7 =>
    rw [decodeWord_of_groupE hg, decodeGroupE, hnn]
    rfl
  all_goals
    refine rowDecodes_of_group fun w hg => ?_
    rw [decodeWord, hg]
    rfl

theorem rowDecodes_of_mem_opcodeRowsD : ∀ r ∈ opcodeRowsD, RowDecodes r.value r.mask r.instr := by
  simp only [opcodeRowsD, List.forall_mem_cons]
  refine ⟨?_, ?_, ?_, ?_, ?_, ?_, ?_, ?_, ?_, nofun⟩
  all_goals
    refine rowDecodes_of_lowByte fun w hg hnn => ?_
    rw [decodeWord_of_groupF hg, decodeGroupF, hnn]
    rfl

/-- A word that a row selects decodes to the row's instruction. -/
theorem rowDecodes_of_mem_opcodeTable : ∀ r ∈ opcodeTable, RowDecodes r.value r.mask r.instr := by
  simp only [opcodeTable, List.forall_mem_append]
  exact ⟨⟨⟨rowDecodes_of_mem_opcodeRowsA, rowDecodes_of_mem_opcodeRowsB⟩, rowDecodes_of_mem_opcodeRowsC⟩,
    rowDecodes_of_mem_opcodeRowsD⟩

/-! ## A word is selected by one row at most -/

theorem mask_of_mem_opcodeTable : ∀ r ∈ opcodeTable, r.mask = maskOfGroup (fieldG r.value) := by
  decide

theorem nodup_values_opcodeTable : (opcodeTable.map (·.value)).Nodup := by
  decide

section

variable {w : Word} {r r₁ r₂ : OpcodeRow}

/-- Every mask of the table keeps the group digit. -/
theorem fieldG_of_maskOfGroup {v : Word} (g : Nibble) (h : w &&& maskOfGroup g = v) : fieldG w = fieldG v := by
  unfold maskOfGroup at h
  split_ifs at h
  · rw [← h]
    exact congrArg fieldG (and_FFFF w).symm
  · exact (fieldGN_of_mask_F00F h).1
  · exact (fieldGNN_of_mask_F0FF h).1
  · exact fieldG_of_mask_F000 h

/-- A row that selects a word has the mask of the word's group. -/
theorem mask_of_selected (hr : r ∈ opcodeTable) (h : w &&& r.mask = r.value) : r.mask = maskOfGroup (fieldG w) := by
  have hmask := mask_of_mem_opcodeTable r hr
  rw [fieldG_of_maskOfGroup _ (hmask ▸ h), hmask]

/-- Rows that select the same word have the same mask, so the same value, and the values of the table differ. -/
theorem row_eq_of_selected (hr₁ : r₁ ∈ opcodeTable) (hr₂ : r₂ ∈ opcodeTable) (h₁ : w &&& r₁.mask = r₁.value)
    (h₂ : w &&& r₂.mask = r₂.value) : r₁ = r₂ := by
  have hmask : r₁.mask = r₂.mask := (mask_of_selected hr₁ h₁).trans (mask_of_selected hr₂ h₂).symm
  have hvalue : r₁.value = r₂.value := by rw [← h₁, ← h₂, hmask]
  exact List.inj_on_of_nodup_map nodup_values_opcodeTable hr₁ hr₂ hvalue

end

/-! ## A word that no row selects is rejected -/

/-- The low bits that are a function of group 0 (R56). -/
def functionsOfGroup0 : List Addr12 := [0x0E0, 0x0EE]

/-- The low bits that are a function of group 8 (R56). -/
def functionsOfGroup8 : List Nibble := [0x0, 0x1, 0x2, 0x3, 0x4, 0x5, 0x6, 0x7, 0xE]

/-- The low bits that are a function of group E (R56). -/
def functionsOfGroupE : List Byte := [0x9E, 0xA1]

/-- The low bits that are a function of group F (R56). -/
def functionsOfGroupF : List Byte := [0x07, 0x0A, 0x15, 0x18, 0x1E, 0x29, 0x33, 0x55, 0x65]

/-- The groups whose function is in the low bits of the word (R56). -/
def groupsWithFunctions : List Nibble := [0x0, 0x8, 0xE, 0xF]

section

variable {w : Word}

theorem decodeWord_error_iff_of_group0 (hg : fieldG w = 0x0#4) :
    decodeWord w = .error (.unrecognised w) ↔ fieldNNN w ∉ functionsOfGroup0 := by
  rw [decodeWord_of_group0 hg, decodeGroup0, functionsOfGroup0]
  split <;> simp_all

theorem decodeWord_error_iff_of_group8 (hg : fieldG w = 0x8#4) :
    decodeWord w = .error (.unrecognised w) ↔ fieldN w ∉ functionsOfGroup8 := by
  rw [decodeWord_of_group8 hg, decodeGroup8, functionsOfGroup8]
  split <;> simp_all

theorem decodeWord_error_iff_of_groupE (hg : fieldG w = 0xE#4) :
    decodeWord w = .error (.unrecognised w) ↔ fieldNN w ∉ functionsOfGroupE := by
  rw [decodeWord_of_groupE hg, decodeGroupE, functionsOfGroupE]
  split <;> simp_all

theorem decodeWord_error_iff_of_groupF (hg : fieldG w = 0xF#4) :
    decodeWord w = .error (.unrecognised w) ↔ fieldNN w ∉ functionsOfGroupF := by
  rw [decodeWord_of_groupF hg, decodeGroupF, functionsOfGroupF]
  split <;> simp_all

/-- Some row of the table selects the word. -/
def Selected (w : Word) : Prop := ∃ r ∈ opcodeTable, w &&& r.mask = r.value

/-- What a mask of the table keeps of the word decides whether a row with that mask selects it. -/
theorem selected_of_value {m v : Word} (hw : w &&& m = v) (h : ∃ r ∈ opcodeTable, r.mask = m ∧ r.value = v) :
    Selected w := by
  obtain ⟨r, hr, hmask, hvalue⟩ := h
  exact ⟨r, hr, by rw [hmask, hvalue, hw]⟩

theorem selected_of_group0 (hg : fieldG w = 0x0#4) (h : fieldNNN w ∈ functionsOfGroup0) : Selected w := by
  have hrows : ∀ nnn ∈ functionsOfGroup0, ∃ r ∈ opcodeTable, r.mask = 0xFFFF#16 ∧ r.value = formA 0x0#4 nnn := by
    decide
  refine selected_of_value ?_ (hrows _ h)
  rw [and_FFFF, ← hg, formA_fields]

theorem selected_of_group8 (hg : fieldG w = 0x8#4) (h : fieldN w ∈ functionsOfGroup8) : Selected w := by
  have hrows : ∀ n ∈ functionsOfGroup8, ∃ r ∈ opcodeTable, r.mask = 0xF00F#16 ∧ r.value = formRRN 0x8#4 0 0 n := by
    decide
  refine selected_of_value ?_ (hrows _ h)
  rw [and_F00F, hg]

theorem selected_of_groupE (hg : fieldG w = 0xE#4) (h : fieldNN w ∈ functionsOfGroupE) : Selected w := by
  have hrows : ∀ nn ∈ functionsOfGroupE, ∃ r ∈ opcodeTable, r.mask = 0xF0FF#16 ∧ r.value = formRI 0xE#4 0 nn := by
    decide
  refine selected_of_value ?_ (hrows _ h)
  rw [and_F0FF, hg]

theorem selected_of_groupF (hg : fieldG w = 0xF#4) (h : fieldNN w ∈ functionsOfGroupF) : Selected w := by
  have hrows : ∀ nn ∈ functionsOfGroupF, ∃ r ∈ opcodeTable, r.mask = 0xF0FF#16 ∧ r.value = formRI 0xF#4 0 nn := by
    decide
  refine selected_of_value ?_ (hrows _ h)
  rw [and_F0FF, hg]

theorem selected_of_other_group (h : fieldG w ∉ groupsWithFunctions) : Selected w := by
  have hrows : ∀ g : Nibble, g ∉ groupsWithFunctions →
      ∃ r ∈ opcodeTable, r.mask = 0xF000#16 ∧ r.value = formA g 0 := by
    decide
  exact selected_of_value (and_F000 w) (hrows _ h)

/-- A selected word decodes, so it is not rejected. -/
theorem decodeWord_ne_error_of_selected (h : Selected w) (e : DecodeError) : decodeWord w ≠ .error e := by
  obtain ⟨r, hr, hw⟩ := h
  rw [rowDecodes_of_mem_opcodeTable r hr w hw]
  exact nofun

theorem groupsWithFunctions_cases (w : Word) :
    fieldG w = 0x0#4 ∨ fieldG w = 0x8#4 ∨ fieldG w = 0xE#4 ∨ fieldG w = 0xF#4 ∨ fieldG w ∉ groupsWithFunctions := by
  simp only [groupsWithFunctions, List.mem_cons, List.not_mem_nil]
  tauto

/-- A word without a row is rejected: its group has functions, and its low bits are none of them. -/
theorem decodeWord_error_of_not_selected (h : ¬Selected w) : decodeWord w = .error (.unrecognised w) := by
  rcases groupsWithFunctions_cases w with hg | hg | hg | hg | hg
  · exact (decodeWord_error_iff_of_group0 hg).mpr fun hf => h (selected_of_group0 hg hf)
  · exact (decodeWord_error_iff_of_group8 hg).mpr fun hf => h (selected_of_group8 hg hf)
  · exact (decodeWord_error_iff_of_groupE hg).mpr fun hf => h (selected_of_groupE hg hf)
  · exact (decodeWord_error_iff_of_groupF hg).mpr fun hf => h (selected_of_groupF hg hf)
  · exact absurd (selected_of_other_group hg) h

end

/-- Settles O16: the columns of the table give the length, the masks and the disjointness, the decoder's groups the
rest. -/
theorem decoderSelectsByMaskAndMatch : Obligations.DecoderSelectsByMaskAndMatch := by
  refine ⟨rfl, mask_of_mem_opcodeTable, rowDecodes_of_mem_opcodeTable, fun w h => ?_,
    fun _ hr₁ _ hr₂ _ => row_eq_of_selected hr₁ hr₂⟩
  exact decodeWord_error_of_not_selected fun ⟨r, hr, hw⟩ => h r hr hw

/-! ## The rejected words as numbers (R57) -/

section

variable {w : Word}

theorem toNat_div_4096_of_fieldG {g : Nibble} (hg : fieldG w = g) : w.toNat / 4096 = g.toNat := by
  rw [← toNat_fieldG, hg]

theorem toNat_div_4096_of_other_group (hg : fieldG w ∉ groupsWithFunctions) :
    w.toNat / 4096 ∉ [0x0, 0x8, 0xE, 0xF] := by
  have hall : ∀ g : Nibble, g ∉ groupsWithFunctions → g.toNat ∉ [0x0, 0x8, 0xE, 0xF] := by decide
  rw [← toNat_fieldG]
  exact hall _ hg

theorem fieldNNN_not_mem_functionsOfGroup0 (hg : w.toNat / 4096 = 0) :
    fieldNNN w ∉ functionsOfGroup0 ↔ w.toNat ≠ 0x0E0 ∧ w.toNat ≠ 0x0EE := by
  have hNNN : (fieldNNN w).toNat = w.toNat := by
    rw [toNat_fieldNNN]
    omega
  simp [functionsOfGroup0, ← BitVec.toNat_inj, hNNN]

theorem fieldN_not_mem_functionsOfGroup8 :
    fieldN w ∉ functionsOfGroup8 ↔ w.toNat % 16 ∈ [0x8, 0x9, 0xA, 0xB, 0xC, 0xD, 0xF] := by
  have hall : ∀ n : Nibble, n ∉ functionsOfGroup8 ↔ n.toNat ∈ [0x8, 0x9, 0xA, 0xB, 0xC, 0xD, 0xF] := by decide
  rw [← toNat_fieldN]
  exact hall _

theorem fieldNN_not_mem_functionsOfGroupE : fieldNN w ∉ functionsOfGroupE ↔ w.toNat % 256 ∉ [0x9E, 0xA1] := by
  simp [functionsOfGroupE, ← BitVec.toNat_inj, toNat_fieldNN]

theorem fieldNN_not_mem_functionsOfGroupF :
    fieldNN w ∉ functionsOfGroupF ↔ w.toNat % 256 ∉ [0x07, 0x0A, 0x15, 0x18, 0x1E, 0x29, 0x33, 0x55, 0x65] := by
  simp [functionsOfGroupF, ← BitVec.toNat_inj, toNat_fieldNN]

end

/-- Settles O17, group by group. -/
theorem unrecognisedWordsAreThoseOfTheList : Obligations.UnrecognisedWordsAreThoseOfTheList := by
  intro w
  rcases groupsWithFunctions_cases w with hg | hg | hg | hg | hg
  · have hG : w.toNat / 4096 = 0 := toNat_div_4096_of_fieldG hg
    rw [decodeWord_error_iff_of_group0 hg, fieldNNN_not_mem_functionsOfGroup0 hG]
    simp [hG]
  · have hG : w.toNat / 4096 = 8 := toNat_div_4096_of_fieldG hg
    rw [decodeWord_error_iff_of_group8 hg, fieldN_not_mem_functionsOfGroup8]
    simp [hG]
  · have hG : w.toNat / 4096 = 0xE := toNat_div_4096_of_fieldG hg
    rw [decodeWord_error_iff_of_groupE hg, fieldNN_not_mem_functionsOfGroupE]
    simp [hG]
  · have hG : w.toNat / 4096 = 0xF := toNat_div_4096_of_fieldG hg
    rw [decodeWord_error_iff_of_groupF hg, fieldNN_not_mem_functionsOfGroupF]
    simp [hG]
  · refine iff_of_false (decodeWord_ne_error_of_selected (selected_of_other_group hg) _) ?_
    have hother := toNat_div_4096_of_other_group hg
    rintro (⟨h, -⟩ | ⟨h, -⟩ | ⟨h, -⟩ | ⟨h, -⟩) <;> simp [h] at hother

end Sys2Proof.Machine
end

section
/-! Obligations O18, O19 and O20: the fields of a word (30_encoding.md R52), the fields without use (R58), and the
decode vectors (95_test_vectors.md 2.7). -/

namespace Sys2Proof.Machine

section

variable {w w' : Word}

theorem toNat_fieldNN_eq_or (w : Word) : (fieldNN w).toNat = (fieldY w).val <<< 4 ||| (fieldN w).toNat := by
  rw [← Nat.shiftLeft_add_eq_or_of_lt (fieldN w).isLt, Nat.shiftLeft_eq, toNat_fieldNN, val_fieldY, toNat_fieldN]
  omega

theorem toNat_fieldNNN_eq_or (w : Word) : (fieldNNN w).toNat = (fieldX w).val <<< 8 ||| (fieldNN w).toNat := by
  rw [← Nat.shiftLeft_add_eq_or_of_lt (fieldNN w).isLt, Nat.shiftLeft_eq, toNat_fieldNNN, val_fieldX, toNat_fieldNN]
  omega

theorem toNat_word_eq_or (w : Word) : w.toNat = (fieldG w).toNat <<< 12 ||| (fieldNNN w).toNat := by
  rw [← Nat.shiftLeft_add_eq_or_of_lt (fieldNNN w).isLt, Nat.shiftLeft_eq, toNat_fieldG, toNat_fieldNNN]
  omega

/-- Words that differ in the low nibble only have the other three fields alike. -/
theorem fieldGXY_eq_of_div_16 (h : w.toNat / 16 = w'.toNat / 16) :
    fieldG w' = fieldG w ∧ fieldX w' = fieldX w ∧ fieldY w' = fieldY w := by
  refine ⟨BitVec.eq_of_toNat_eq ?_, Fin.ext ?_, Fin.ext ?_⟩
  · rw [toNat_fieldG, toNat_fieldG]
    omega
  · rw [val_fieldX, val_fieldX]
    omega
  · rw [val_fieldY, val_fieldY]
    omega

end

/-- Settles O18: the low byte is two nibbles, `NNN` a nibble and the low byte, the word a nibble and `NNN`. -/
theorem wordIsRebuiltFromItsFields : Obligations.WordIsRebuiltFromItsFields := by
  intro w
  have hNN := toNat_fieldNN_eq_or w
  have hNNN : (fieldNNN w).toNat = (fieldX w).val <<< 8 ||| (fieldY w).val <<< 4 ||| (fieldN w).toNat := by
    rw [toNat_fieldNNN_eq_or, hNN, Nat.or_assoc]
  refine ⟨?_, hNN, hNNN⟩
  rw [toNat_word_eq_or, hNNN, Nat.or_assoc, Nat.or_assoc, Nat.or_assoc]

/-- Settles O19: groups 5 and 9 decode from `G`, `X` and `Y` alone, and the meaning of a shift does not mention `y`. -/
theorem ignoredFieldsChangeNothing : Obligations.IgnoredFieldsChangeNothing := by
  refine ⟨fun w w' hgroup h => ?_, fun s x y y' => ⟨rfl, rfl⟩⟩
  obtain ⟨hG, hX, hY⟩ := fieldGXY_eq_of_div_16 h
  rcases hgroup with h5 | h9
  · rw [decodeWord, decodeWord, hG, hX, hY, h5]
    rfl
  · rw [decodeWord, decodeWord, hG, hX, hY, h9]
    rfl

/-- Settles O20: the decoder evaluates to the listed instruction on each word. -/
theorem wordsOfTheSpecDecode : Obligations.WordsOfTheSpecDecode := by
  unfold Obligations.WordsOfTheSpecDecode
  and_intros <;> rfl

end Sys2Proof.Machine
end

section
/-! Obligations O3, O21 to O24 and O55: control transfer and the no-op of a word that no row selects (40_flow.md R70 to
R74). -/

namespace Sys2Proof.Machine

/-- A row of the opcode map, by its place in it (from 0): the words it selects decode to its instruction. -/
theorem rowDecodes_of_row (k : Nat) (mnemonic : String) {value mask : Word} {instr : Word → Instr}
    (h : opcodeTable[k]? = some ⟨mnemonic, value, mask, instr⟩) : RowDecodes value mask instr :=
  rowDecodes_of_mem_opcodeTable _ (List.mem_of_getElem? h)

/-! ## The no-op (R74) -/

/-- Settles O3: the word is rejected by the decoder, and a due `Step` fetches it with the event taken off. -/
theorem unrecognisedWordOnlyReports : Obligations.UnrecognisedWordOnlyReports := by
  intro s u w hrun hdue hfetch hrows
  have hdecode : decodeWord w = .error (.unrecognised w) :=
    decodeWord_error_of_not_selected fun ⟨r, hr, hw⟩ => hrows r hr hw
  rw [step_of_due hdue, hdue.eq]
  exact runInstr_of_error hrun hfetch hdecode

/-! ## The targets of the jumps (R54, R73) -/

/-- `NNN` is zero-extended, so its value is kept (R54). -/
theorem toNat_addrWord (nnn : Addr12) : (addrWord nnn).toNat = nnn.toNat :=
  BitVec.toNat_setWidth_of_le (by decide)

/-- The sum of a byte and `NNN` fits `pc`, so it is not reduced (R73). -/
theorem toNat_offsetTarget (offset : Byte) (nnn : Addr12) :
    (offsetTarget offset nnn).toNat = offset.toNat + nnn.toNat := by
  have hoffset := offset.isLt
  have hnnn := nnn.isLt
  rw [offsetTarget, BitVec.toNat_ofNat, Nat.mod_eq_of_lt (by omega)]

/-! ## The call stack (R70, R72) -/

section

variable {s : State}

theorem exec_ret_of_append {older : List Word} {a : Word} (h : s.stack = older ++ [a]) :
    exec .ret s = .next { s with pc := a, stack := older } := by
  change execRet s = _
  simp [execRet, State.popped, State.jump, h]

theorem exec_ret_of_nil (h : s.stack = []) : exec .ret s = raise .stackUnderflow 0 s := by
  change execRet s = _
  simp [execRet, h]

theorem exec_call_of_lt (h : s.stack.length < 16) (nnn : Addr12) :
    exec (.call nnn) s = .next { s with pc := addrWord nnn, stack := s.stack ++ [s.pc + 2] } := by
  have hroom : ¬s.stackFull = true := mt stackFull_iff.mp (Nat.not_le.mpr h)
  exact if_neg hroom

theorem exec_call_of_ge (h : 16 ≤ s.stack.length) (nnn : Addr12) :
    exec (.call nnn) s = raise .stackOverflow 0 s :=
  if_pos (stackFull_iff.mpr h)

end

/-! ## The statements -/

/-- Settles O21: the newest entry is the last one of the stack. -/
theorem retPopsThePc : Obligations.RetPopsThePc :=
  ⟨rowDecodes_of_row 1 "RET" rfl, fun _ _ _ => exec_ret_of_append, fun _ => exec_ret_of_nil⟩

/-- Settles O22: a jump writes `pc` alone, and `NNN` keeps its value in it. -/
theorem jpSetsThePc : Obligations.JpSetsThePc :=
  ⟨rowDecodes_of_row 2 "JP_nnn" rfl, fun _ nnn => ⟨_, rfl, rfl, toNat_addrWord nnn⟩⟩

/-- Settles O23: below 16 entries there is room for one more, from 16 on there is none. -/
theorem callPushesTheReturnAddress : Obligations.CallPushesTheReturnAddress :=
  ⟨rowDecodes_of_row 3 "CALL_nnn" rfl, fun _ nnn hroom => ⟨_, exec_call_of_lt hroom nnn, rfl, toNat_addrWord nnn⟩,
    fun _ nnn hfull => exec_call_of_ge hfull nnn⟩

/-- Settles O24: a jump writes `pc` alone, and the sum fits it. -/
theorem jpV0AddsTheOffset : Obligations.JpV0AddsTheOffset :=
  ⟨rowDecodes_of_row 20 "JP_V0_nnn" rfl, fun s nnn => ⟨_, rfl, rfl, toNat_offsetTarget (s.reg 0) nnn⟩⟩

/-- Settles O55: the entry the return pops is the one the call pushed. -/
theorem returnUndoesTheCall : Obligations.ReturnUndoesTheCall :=
  fun _ nnn hroom => ⟨_, exec_call_of_lt hroom nnn, exec_ret_of_append rfl⟩

end Sys2Proof.Machine
end

section
/-! Obligations O25 and O26: the skips on immediates and registers (41_skip.md R80 to R83). -/

namespace Sys2Proof.Machine

section

variable (s : State)

/-- Moving past the skip's own word and then skipping on `c` moves `pc` on by two words or by one; everything else is
kept. -/
theorem advance_skipIf (c : Bool) :
    s.advance.skipIf c = { s with pc := if c then s.pc + 4 else s.pc + 2 } := by
  cases c with
  | false => rfl
  | true =>
    have hpc : s.pc + 2 + 2 = s.pc + 4 := BitVec.add_assoc s.pc 2 2
    exact congrArg (State.jump · s) hpc

/-- A skip on equality. -/
theorem advance_skipIf_beq (a b : Byte) :
    s.advance.skipIf (a == b) = { s with pc := if a = b then s.pc + 4 else s.pc + 2 } := by
  simp [advance_skipIf]

/-- A skip on inequality. -/
theorem advance_skipIf_bne (a b : Byte) :
    s.advance.skipIf (a != b) = { s with pc := if a = b then s.pc + 2 else s.pc + 4 } := by
  by_cases h : a = b <;> simp [advance_skipIf, h]

end

/-- Settles O25: both skips compare `x[X]` with the immediate, after `pc` has moved past the word. -/
theorem immediateSkipsMoveThePc : Obligations.ImmediateSkipsMoveThePc :=
  ⟨rowDecodes_of_row 4 "SE_Vx_nn" rfl, rowDecodes_of_row 5 "SNE_Vx_nn" rfl, fun s x nn =>
    ⟨congrArg Host.Outcome.next (advance_skipIf_beq s (s.reg x) nn),
      congrArg Host.Outcome.next (advance_skipIf_bne s (s.reg x) nn)⟩⟩

/-- Settles O26: both skips compare `x[X]` with `x[Y]`; their rows' masks cover the group alone, so the low nibble is
free. -/
theorem registerSkipsMoveThePc : Obligations.RegisterSkipsMoveThePc :=
  ⟨rowDecodes_of_row 6 "SE_Vx_Vy" rfl, rowDecodes_of_row 18 "SNE_Vx_Vy" rfl, fun s x y =>
    ⟨congrArg Host.Outcome.next (advance_skipIf_beq s (s.reg x) (s.reg y)),
      congrArg Host.Outcome.next (advance_skipIf_bne s (s.reg x) (s.reg y))⟩⟩

end Sys2Proof.Machine
end

section
/-! Obligations O27 to O32: register loads, arithmetic, logic and shifts (42_alu.md R90 to R102). The results in the
rules' numbers, then the two forms of an effect (destination alone, destination and flag), then the instructions. -/

namespace Sys2Proof.Machine

section

variable (a b : Byte)

/-! ## Results modulo 256 (R91, R96 to R100) -/

theorem add_eq_ofNat_mod : a + b = BitVec.ofNat 8 ((a.toNat + b.toNat) % 256) :=
  BitVec.eq_of_toNat_eq (by simp)

theorem sub_eq_ofNat_mod : a - b = BitVec.ofNat 8 ((256 + a.toNat - b.toNat) % 256) := by
  refine BitVec.eq_of_toNat_eq ?_
  have hb := b.isLt
  rw [BitVec.toNat_sub, BitVec.toNat_ofNat, Nat.mod_mod]
  congr 1
  omega

theorem shiftRight_one_eq_ofNat_div : a >>> 1 = BitVec.ofNat 8 (a.toNat / 2) := by
  refine BitVec.eq_of_toNat_eq ?_
  have ha := a.isLt
  rw [BitVec.toNat_ushiftRight, Nat.shiftRight_eq_div_pow, BitVec.toNat_ofNat, Nat.mod_eq_of_lt (by omega),
    pow_one]

theorem shiftLeft_one_eq_ofNat_mod : a <<< 1 = BitVec.ofNat 8 (a.toNat * 2 % 256) := by
  refine BitVec.eq_of_toNat_eq ?_
  rw [BitVec.toNat_shiftLeft, Nat.shiftLeft_eq, BitVec.toNat_ofNat, Nat.mod_mod, pow_one]

/-! ## Flags (R11) -/

theorem flagByte_decide (p : Prop) [Decidable p] : flagByte (decide p) = if p then 1 else 0 := by
  simp [flagByte]

/-- A bit of a byte, as a flag, is the digit of its value in base 2. -/
theorem flagByte_getLsbD (k : Nat) : flagByte (a.getLsbD k) = BitVec.ofNat 8 (a.toNat / 2 ^ k % 2) := by
  rw [BitVec.getLsbD, Nat.testBit_eq_decide_div_mod_eq, flagByte_decide]
  rcases Nat.mod_two_eq_zero_or_one (a.toNat / 2 ^ k) with h | h <;> rw [h] <;> rfl

theorem flagByte_shiftedOutRight : flagByte (shiftedOutRight a) = BitVec.ofNat 8 (a.toNat % 2) := by
  rw [shiftedOutRight, flagByte_getLsbD, pow_zero, Nat.div_one]

theorem flagByte_shiftedOutLeft : flagByte (shiftedOutLeft a) = BitVec.ofNat 8 (a.toNat / 128) := by
  have ha := a.isLt
  have hbit : a.toNat / 2 ^ 7 % 2 = a.toNat / 128 := by omega
  rw [shiftedOutLeft, flagByte_getLsbD, hbit]

end

/-! ## The two forms of an effect (R101) -/

section

variable {i : Instr} {s : State} {x : Reg} {b result flag : Byte} {f : Bool}

/-- An instruction that writes its destination alone. -/
theorem registersBecome_of_setReg (h : exec i s = .next (s.advance.setReg x b)) (hresult : b = result) :
    RegistersBecome i s fun r => if r = x then result else s.reg r :=
  ⟨_, h, rfl, fun r => hresult ▸ reg_setReg s.advance x r b⟩

/-- An instruction that writes its destination and then the flag, which stays in VF whatever the destination. -/
theorem registersBecome_of_setRegFlag (h : exec i s = .next (s.advance.setRegFlag x b f)) (hresult : b = result)
    (hflag : flagByte f = flag) :
    RegistersBecome i s fun r => if r = 15 then flag else if r = x then result else s.reg r :=
  ⟨_, h, rfl, fun r => hresult ▸ hflag ▸ reg_setRegFlag s.advance x r b f⟩

end

/-! ## The statements -/

/-- Settles O27: the loads write their destination alone. -/
theorem registerLoadsWriteTheDestination : Obligations.RegisterLoadsWriteTheDestination :=
  ⟨rowDecodes_of_row 7 "LD_Vx_nn" rfl, rowDecodes_of_row 9 "LD_Vx_Vy" rfl,
    fun _ _ _ => registersBecome_of_setReg rfl rfl, fun _ _ _ => registersBecome_of_setReg rfl rfl⟩

/-- Settles O28: the sum goes to the destination alone, so VF changes only as destination. -/
theorem addImmediateWrapsWithoutFlag : Obligations.AddImmediateWrapsWithoutFlag :=
  ⟨rowDecodes_of_row 8 "ADD_Vx_nn" rfl, fun s x nn =>
    registersBecome_of_setReg rfl (add_eq_ofNat_mod (s.reg x) nn)⟩

/-- Settles O29: the flag of the logic instructions is always clear. -/
theorem logicInstructionsClearVf : Obligations.LogicInstructionsClearVf :=
  ⟨rowDecodes_of_row 10 "OR_Vx_Vy" rfl, rowDecodes_of_row 11 "AND_Vx_Vy" rfl, rowDecodes_of_row 12 "XOR_Vx_Vy" rfl,
    fun _ _ _ => ⟨registersBecome_of_setRegFlag rfl rfl rfl, registersBecome_of_setRegFlag rfl rfl rfl,
      registersBecome_of_setRegFlag rfl rfl rfl⟩⟩

/-- Settles O30: the flag is the carry of the old operands. -/
theorem addRegistersSetsCarry : Obligations.AddRegistersSetsCarry :=
  ⟨rowDecodes_of_row 13 "ADD_Vx_Vy" rfl, fun s x y =>
    registersBecome_of_setRegFlag rfl (add_eq_ofNat_mod (s.reg x) (s.reg y)) (flagByte_decide _)⟩

/-- Settles O31: the flag is "no borrow", the old minuend at least the old subtrahend. -/
theorem subtractionsSetNoBorrow : Obligations.SubtractionsSetNoBorrow :=
  ⟨rowDecodes_of_row 14 "SUB_Vx_Vy" rfl, rowDecodes_of_row 16 "SUBN_Vx_Vy" rfl,
    fun s x y => registersBecome_of_setRegFlag rfl (sub_eq_ofNat_mod (s.reg x) (s.reg y)) (flagByte_decide _),
    fun s x y => registersBecome_of_setRegFlag rfl (sub_eq_ofNat_mod (s.reg y) (s.reg x)) (flagByte_decide _)⟩

/-- Settles O32: halving and doubling of the old `x[X]`, the flag its bit 0 or its bit 7. -/
theorem shiftsMoveOneBitIntoVf : Obligations.ShiftsMoveOneBitIntoVf :=
  ⟨rowDecodes_of_row 15 "SHR_Vx" rfl, rowDecodes_of_row 17 "SHL_Vx" rfl,
    fun s x _ => registersBecome_of_setRegFlag rfl (shiftRight_one_eq_ofNat_div (s.reg x))
      (flagByte_shiftedOutRight (s.reg x)),
    fun s x _ => registersBecome_of_setRegFlag rfl (shiftLeft_one_eq_ofNat_mod (s.reg x))
      (flagByte_shiftedOutLeft (s.reg x))⟩

end Sys2Proof.Machine
end

section
/-! Obligations O33 to O37 and O56: the index register and the memory transfers (43_index_memory.md R110 to R115). The
values of `I` as numbers, then what each transfer does inside and outside the address space, then the statements. -/

namespace Sys2Proof.Machine

/-! ## Values of the index register (R38, R111) -/

/-- Five times a byte fits `I`, so it is not reduced (R38, R112). -/
theorem toNat_glyphAddress (d : Byte) : (glyphAddress d).toNat = d.toNat * 5 := by
  have hd := d.isLt
  rw [glyphAddress, BitVec.toNat_ofNat, Nat.mod_eq_of_lt (by omega)]

/-- A sum above 0xFFF is taken modulo 4096 (R111). -/
theorem toNat_indexAfter_of_gt {n : Nat} (h : n > 0xFFF) : (indexAfter n).toNat = n % 4096 := by
  have hover : indexOverflow n = true := decide_eq_true h
  rw [indexAfter, if_pos hover, BitVec.toNat_ofNat, Nat.mod_eq_of_lt (by omega)]

/-- A sum of at most 0xFFF is kept (R111). -/
theorem toNat_indexAfter_of_le {n : Nat} (h : n ≤ 0xFFF) : (indexAfter n).toNat = n := by
  have hfits : ¬indexOverflow n = true := by simpa [indexOverflow] using h
  rw [indexAfter, if_neg hfits, BitVec.toNat_ofNat, Nat.mod_eq_of_lt (by omega)]

/-! ## Reads after a block store (R45) -/

section

variable {m : Memory}

/-- A block store leaves the bytes below and above it as they are. -/
theorem read_writeBytes_of_outside (hm : m.wf = true) {a q : Nat} {bs : List Byte}
    (hroom : a + bs.length ≤ Config.memSize) (hq : q < a ∨ a + bs.length ≤ q) :
    (m.writeBytes a bs).read q = m.read q := by
  rw [read_writeBytes hm a bs hroom]
  rcases hq with hbelow | habove
  · exact if_neg (Nat.not_le.mpr hbelow)
  · rw [List.getElem?_eq_none (Nat.le_sub_of_add_le' habove), Option.getD_none, ite_self]

/-- After the decimal digits of a byte are stored from `a` up: hundreds, tens and ones at `a`, `a + 1`, `a + 2`, the
old byte everywhere else (R113). -/
theorem read_writeBytes_decimalDigits (hm : m.wf = true) {a : Nat} (hroom : a + 2 ≤ 4095) (b : Byte) (q : Nat) :
    (m.writeBytes a (decimalDigits b)).read q =
      if q = a then BitVec.ofNat 8 (b.toNat / 100)
      else if q = a + 1 then BitVec.ofNat 8 (b.toNat / 10 % 10)
      else if q = a + 2 then BitVec.ofNat 8 (b.toNat % 10)
      else m.read q := by
  have hroom' : a + (decimalDigits b).length ≤ Config.memSize := Nat.succ_le_succ hroom
  rcases Nat.lt_or_ge q a with hbelow | hge
  · rw [read_writeBytes_of_outside hm hroom' (.inl hbelow), if_neg (by omega), if_neg (by omega), if_neg (by omega)]
  · obtain ⟨k, rfl⟩ := Nat.exists_eq_add_of_le hge
    rw [read_writeBytes hm _ _ hroom', if_pos hge, Nat.add_sub_cancel_left]
    match k with
    | 0 | 1 | 2 | k + 3 => simp [decimalDigits]

end

/-! ## The transfers inside and outside the address space (R37, R46) -/

section

variable {s : State} {x : Reg}

/-- A block store of `count + 1` bytes that would end above 4095 faults, with the table's code and information
(R141). -/
theorem storeAtIndex_of_gt {bytes : List Byte} {count : Nat} (hlength : bytes.length = count + 1)
    (h : 4095 < s.I.toNat + count) : storeAtIndex bytes s = raise .memRange s.rangeInfo s := by
  have hout : s.inRange bytes.length = false := by
    rw [hlength, inRange_false_iff]
    exact ⟨count.succ_ne_zero, h⟩
  exact storeAtIndex_of_not_inRange hout

theorem exec_ldB_of_le (h : s.I.toNat + 2 ≤ 4095) :
    exec (.ldB x) s =
      .next { s.advance with memory := s.memory.writeBytes s.I.toNat (decimalDigits (s.reg x)) } := by
  have hin : s.inRange (decimalDigits (s.reg x)).length = true := inRange_iff.mpr (.inr h)
  exact storeAtIndex_of_inRange hin

theorem exec_ldB_of_gt (h : 4095 < s.I.toNat + 2) : exec (.ldB x) s = raise .memRange s.rangeInfo s :=
  storeAtIndex_of_gt (length_decimalDigits (s.reg x)) h

theorem exec_dump_of_gt (h : 4095 < s.I.toNat + x.val) : exec (.dump x) s = raise .memRange s.rangeInfo s :=
  storeAtIndex_of_gt (length_regsUpTo x) h

/-- A dump leaves every byte outside `I`..`I + X` as it is (R114). -/
theorem read_outside_dumped (hm : s.memory.wf = true) (h : s.I.toNat + x.val ≤ 4095) {a : Nat}
    (ha : a < s.I.toNat ∨ s.I.toNat + x.val < a) :
    (s.memory.writeBytes s.I.toNat (s.regsUpTo x)).read a = s.memory.read a := by
  apply read_writeBytes_of_outside hm <;> rw [length_regsUpTo]
  · exact Nat.succ_le_succ h
  · exact ha

theorem exec_load_of_le (h : s.I.toNat + x.val ≤ 4095) : exec (.load x) s = .next (s.advance.loadRegs x) :=
  if_pos (inRange_iff.mpr (.inr h))

theorem exec_load_of_gt (h : 4095 < s.I.toNat + x.val) : exec (.load x) s = raise .memRange s.rangeInfo s := by
  have hout : s.inRange (x.val + 1) = false := inRange_false_iff.mpr ⟨x.val.succ_ne_zero, h⟩
  exact if_neg (Bool.eq_false_iff.mp hout)

end

/-! ## The statements -/

/-- Settles O34: `I` takes the sum and VF, written last, whether the sum has passed 0xFFF. -/
theorem addIndexWrapsAt4096WithFlag : Obligations.AddIndexWrapsAt4096WithFlag := by
  refine ⟨rowDecodes_of_row 29 "ADD_I_Vx" rfl, fun s x => ?_⟩
  have hflag : flagByte (indexOverflow (indexSum s.I (s.reg x))) =
      if s.I.toNat + (s.reg x).toNat > 0xFFF then 1 else 0 := flagByte_decide _
  refine ⟨_, rfl, rfl, fun hgt => ⟨toNat_indexAfter_of_gt hgt, ?_⟩, fun hle => ⟨toNat_indexAfter_of_le hle, ?_⟩⟩
  · rw [hflag, if_pos hgt]
    exact fun r => reg_setReg _ _ r _
  · rw [hflag, if_neg (Nat.not_lt.mpr hle)]
    exact fun r => reg_setReg _ _ r _

/-- Settles O35: the check covers the three digits, and then each stands at its address. -/
theorem bcdStoresThreeDigits : Obligations.BcdStoresThreeDigits :=
  ⟨rowDecodes_of_row 31 "LD_B_Vx" rfl,
    fun s x hm hlast => ⟨_, exec_ldB_of_le hlast, rfl, read_writeBytes_decimalDigits hm hlast (s.reg x)⟩,
    fun _ _ hpast => exec_ldB_of_gt hpast⟩

/-- Settles O36: the check covers V0..VX, and then each stands at its address and no other byte has changed. -/
theorem dumpStoresTheRegisters : Obligations.DumpStoresTheRegisters :=
  ⟨rowDecodes_of_row 32 "LD__I__Vx" rfl,
    fun _ _ hm hlast => ⟨_, exec_dump_of_le hlast, rfl, fun _ => read_dumped hm hlast,
      fun _ => read_outside_dumped hm hlast⟩,
    fun _ _ hpast => exec_dump_of_gt hpast⟩

/-- Settles O37: the check covers `I`..`I + X`, and then V0..VX take the bytes there. -/
theorem loadReadsTheRegisters : Obligations.LoadReadsTheRegisters :=
  ⟨rowDecodes_of_row 33 "LD_Vx__I" rfl,
    fun s x hlast => ⟨_, exec_load_of_le hlast, rfl, reg_loadRegs s.advance x⟩,
    fun _ _ hpast => exec_load_of_gt hpast⟩

/-- Settles O56: a dump leaves `I` as it is, so the load reads each register where the dump stored it. -/
theorem loadRestoresDumpedRegisters : Obligations.LoadRestoresDumpedRegisters := by
  intro s x between hm hlast
  refine ⟨_, _, exec_dump_of_le hlast, exec_load_of_le hlast, fun r hr => ?_⟩
  rw [reg_loadRegs, if_pos hr]
  exact read_dumped hm hlast hr

/-- Settles O33: both loads write `I` alone, and their values fit it. -/
theorem indexLoadsWriteOnlyTheIndex : Obligations.IndexLoadsWriteOnlyTheIndex :=
  ⟨rowDecodes_of_row 19 "LD_I_nnn" rfl, rowDecodes_of_row 30 "LD_F_Vx" rfl,
    fun _ nnn => ⟨_, rfl, rfl, toNat_addrWord nnn⟩, fun s x => ⟨_, rfl, rfl, toNat_glyphAddress (s.reg x)⟩⟩

end Sys2Proof.Machine
end

section
/-! Obligations O38 and O39: the reads and writes of the timers (44_timers.md R120 to R122). -/

namespace Sys2Proof.Machine

/-- Settles O38: the read takes DT as it is and writes the destination alone. -/
theorem delayTimerIsRead : Obligations.DelayTimerIsRead :=
  ⟨rowDecodes_of_row 25 "LD_Vx_DT" rfl, fun _ _ => registersBecome_of_setReg rfl rfl⟩

/-- Settles O39: each write moves past its word and sets its own timer, with nothing to check. -/
theorem timersAreWrittenIndependently : Obligations.TimersAreWrittenIndependently :=
  ⟨rowDecodes_of_row 27 "LD_DT_Vx" rfl, rowDecodes_of_row 28 "LD_ST_Vx" rfl, fun _ _ => ⟨rfl, rfl⟩⟩

end Sys2Proof.Machine
end

section
/-! Obligations O40 to O44: the transactions with the framebuffer, the random source and the keyboard
(45_collaborators.md R130 to R135). What the answers may be, then the draw and the key skips inside and outside their
ranges, then the statements. -/

namespace Sys2Proof.Machine

/-! ## What the answers may be (R136, R137) -/

/-- A sprite without rows collides with nothing (R136). -/
theorem limitCollision_of_length_eq_zero {rows : List Byte} (h : rows.length = 0) (answer : Bool) :
    limitCollision rows answer = false := by
  rw [List.length_eq_zero_iff.mp h]
  rfl

/-- A sprite with rows takes the framebuffer's answer (R136). -/
theorem limitCollision_of_length_ne_zero {rows : List Byte} (h : rows.length ≠ 0) (answer : Bool) :
    limitCollision rows answer = answer := by
  have hrows : rows.isEmpty = false := List.isEmpty_eq_false_iff.mpr (mt List.length_eq_zero_iff.mpr h)
  rw [limitCollision, hrows, Bool.not_false, Bool.true_and]

/-- With a key down the answer is the low digit of the free byte (R137). -/
theorem toNat_limitActive_of_ne_zero {keys : BitVec 16} (h : keys ≠ 0) (b : Byte) :
    (limitActive keys b).toNat = b.toNat % 16 := by
  rw [limitActive, if_neg h, BitVec.toNat_and]
  exact Nat.and_two_pow_sub_one_eq_mod b.toNat 4

/-- With no key down the answer is the free byte itself (R137). -/
theorem limitActive_zero (b : Byte) : limitActive 0 b = b := if_pos rfl

section

variable {s : State} {x y : Reg}

/-! ## The draw inside and outside the address space (R132) -/

/-- The rows of a sprite are as many as the draw asks for. -/
theorem length_spriteRows (n : Nibble) : (s.spriteRows n).length = n.toNat :=
  length_readBytes s.memory s.I.toNat n.toNat

theorem drwWith_of_inRange {n : Nibble} (h : s.inRange n.toNat = true) (answer : Bool) :
    drwWith answer x y n s =
      .next ((s.advance.issue (.fbDrawSprite (s.spriteRows n) (s.reg x) (s.reg y)
        (limitCollision (s.spriteRows n) answer))).drawn.setReg Reg.vf
          (flagByte (limitCollision (s.spriteRows n) answer))) :=
  if_pos h

theorem drwWith_of_not_inRange {n : Nibble} (h : s.inRange n.toNat = false) (answer : Bool) :
    drwWith answer x y n s = raise .memRange s.rangeInfo s :=
  if_neg (Bool.eq_false_iff.mp h)

/-! ## The key skips on a key number and above (R133, R134) -/

/-- On key number `k` the keyboard is asked about `k`, and `pc` moves on by two words when the key is as wanted. -/
theorem keySkipWith_of_key {k : Nibble} (h : (s.reg x).toNat = k.toNat) (answers : BitVec 16) (wanted : Bool) :
    keySkipWith answers wanted x s = .next { s with
      pc := if answers.getLsbD k.toNat == wanted then s.pc + 4 else s.pc + 2
      draws := s.draws + 1
      outputs := s.outputs ++ [.kbIsKeyDown k (answers.getLsbD k.toNat)] } := by
  have hk := k.isLt
  have hkey : (s.reg x).setWidth 4 = k := by rw [← BitVec.ofNat_toNat, h, BitVec.ofNat_toNat, BitVec.setWidth_eq]
  rw [keySkipWith, if_neg (by omega), hkey, h]
  exact congrArg Host.Outcome.next (advance_skipIf (s.issue (.kbIsKeyDown k (answers.getLsbD k.toNat))).drawn _)

/-- A register above 15 names no key, and the fault tells its value (R141). -/
theorem keySkipWith_of_gt (h : 15 < (s.reg x).toNat) (answers : BitVec 16) (wanted : Bool) :
    keySkipWith answers wanted x s = raise .keyRange (BitVec.ofNat 16 (s.reg x).toNat) s := by
  rw [keySkipWith, if_pos h, BitVec.ofNat_toNat]

end

/-! ## The statements -/

/-- Settles O42: the check covers the rows, and then VF, written last, takes the collision as the flag. -/
theorem drawPassesTheRowsAndTakesTheCollision : Obligations.DrawPassesTheRowsAndTakesTheCollision := by
  refine ⟨rowDecodes_of_row 22 "DRW_Vx_Vy_n" rfl, fun s x y n hroom => ?_, fun s x y n hrows hpast => ?_⟩
  · have hlength : (s.spriteRows n).length = n.toNat := length_spriteRows n
    refine ⟨_, s.spriteRows n, _, drwWith_of_inRange (inRange_iff.mpr hroom) _, hlength,
      fun k => getElem?_readBytes s.memory s.I.toNat, fun hn => ?_, fun hn => ?_, rfl, fun r => reg_setReg _ _ r _⟩
    · exact limitCollision_of_length_eq_zero (hlength.trans hn) _
    · exact limitCollision_of_length_ne_zero (hlength.trans_ne hn) _
  · exact drwWith_of_not_inRange (inRange_false_iff.mpr ⟨hrows, hpast⟩) _

/-- Settles O43: `SKP` skips on the answer and `SKNP` on its opposite; the range check comes before the query. -/
theorem keySkipsFollowTheKeyboard : Obligations.KeySkipsFollowTheKeyboard := by
  refine ⟨rowDecodes_of_row 23 "SKP_Vx" rfl, rowDecodes_of_row 24 "SKNP_Vx" rfl, fun s x k hkey => ?_,
    fun s x hpast => ⟨keySkipWith_of_gt hpast _ _, keySkipWith_of_gt hpast _ _⟩⟩
  have hskp : exec (.skp x) s = _ := keySkipWith_of_key hkey (Config.keysDown s.draws) true
  have hsknp : exec (.sknp x) s = _ := keySkipWith_of_key hkey (Config.keysDown s.draws) false
  rw [hskp, hsknp]
  cases (Config.keysDown s.draws).getLsbD k.toNat <;> exact ⟨rfl, rfl⟩

/-- Settles O40: there is nothing to check, and the record and `pc` are all that is written. -/
theorem clsOnlyClearsTheScreen : Obligations.ClsOnlyClearsTheScreen :=
  ⟨rowDecodes_of_row 0 "CLS" rfl, fun _ => rfl⟩

/-- Settles O41: the destination takes the masked answer, and a masked byte has no bit in common with the mask's
complement. -/
theorem rndMasksAFreeByte : Obligations.RndMasksAFreeByte := by
  refine ⟨rowDecodes_of_row 21 "RND_Vx_nn" rfl, fun s x nn => ⟨_, rfl, rfl, fun r => reg_setReg _ x r _, ?_⟩⟩
  rw [reg_setReg_same, BitVec.and_assoc, BitVec.and_not_self]
  exact BitVec.and_zero

/-- Settles O44: there is no state in which the instruction waits, and the destination takes the answer as it is. -/
theorem activeKeyIsReadWithoutWaiting : Obligations.ActiveKeyIsReadWithoutWaiting := by
  refine ⟨rowDecodes_of_row 26 "LD_Vx_K" rfl, fun s x =>
    ⟨_, activeAnswer s.draws, rfl, rfl, fun r => reg_setReg _ x r _, fun hdown => ?_, fun hnone => ?_⟩⟩
  · exact toNat_limitActive_of_ne_zero hdown _
  · rw [activeAnswer, hnone, limitActive_zero]

end Sys2Proof.Machine
end

section
/-! Obligations O46, O4, O5 and O13: faults (60_exceptions.md R140 to R143). The fault a `Step` raises is named by its
cause, as the checks of the instructions make it; the cycle answers with that fault or runs on, and the fault table is
that fault with its code. -/

namespace Sys2Proof.Machine

/-! ## The fault of an instruction and of a `Step` (R141) -/

/-- MEM_RANGE for an access of `count` bytes from `I` up that does not pass the range check (R37). -/
def rangeFault (s : State) (count : Nat) : Option (Fault × Word) :=
  if s.inRange count = false then some (.memRange, s.rangeInfo) else none

/-- The fault of an instruction in a state, by cause. -/
def instrFault (s : State) : Instr → Option (Fault × Word)
  | .drw _ _ n => rangeFault s n.toNat
  | .ldB _ => rangeFault s 3
  | .dump x | .load x => rangeFault s (x.val + 1)
  | .ret => if s.stack = [] then some (.stackUnderflow, 0) else none
  | .call _ => if 16 ≤ s.stack.length then some (.stackOverflow, 0) else none
  | .skp x | .sknp x => if 15 < (s.reg x).toNat then some (.keyRange, BitVec.ofNat 16 (s.reg x).toNat) else none
  | _ => none

/-- The fault of a `Step` of the running machine: the range of the fetch is checked first (R142). -/
def stepFault (s : State) : Option (Fault × Word) :=
  if 4094 < s.pc.toNat then some (.fetchRange, s.pc) else s.instrAtPc.bind (instrFault s)

/-- A fault as the fault registers hold it. -/
def asRecorded (f : Fault × Word) : BitVec 3 × Word := (f.1.code, f.2)

/-- The outcome of a `Step` from `s` is the given fault, or a next state with the status registers of `s`. -/
def Answers (s : State) (o : Out) : Option (Fault × Word) → Prop
  | some (c, info) => o = raise c info s
  | none => ∃ t, o = .next t ∧ t.status = s.status ∧ t.faultCause = s.faultCause ∧ t.faultInfo = s.faultInfo

section

variable {s t : State} {o : Out} {c : Fault} {info : Word}

/-- An operation guarded by one check answers with the fault of that check. -/
theorem answers_ite {p : Prop} [Decidable p] (hfaults : p → Answers s o (some (c, info)))
    (hruns : ¬p → Answers s o none) : Answers s o (if p then some (c, info) else none) := by
  split
  · exact hfaults ‹p›
  · exact hruns ‹¬p›

theorem Answers.completes {f : Option (Fault × Word)} (h : Answers s o f) : ∃ t, o = .next t :=
  match f, h with
  | some _, hraise => ⟨_, hraise⟩
  | none, ⟨t, ht, _⟩ => ⟨t, ht⟩

/-- The next state is the given one but for the status registers, or the status is as it was (R143). -/
theorem Answers.fault_or_status {f : Option (Fault × Word)} (h : Answers s (.next t) f) :
    (∃ c info, f = some (c, info) ∧ t = { s with status := .faulted, faultCause := c.code, faultInfo := info }) ∨
    t.status = s.status :=
  match f, h with
  | some (c, info), hraise => .inl ⟨c, info, rfl, next_inj hraise⟩
  | none, ⟨_, ht, hkept, _⟩ => .inr (next_inj ht ▸ hkept)

/-! ## The fault table is the fault of the `Step`, with its code (R141, R142) -/

theorem inRange_eq_false_iff_gt {n : Nat} (hn : n ≠ 0) : s.inRange n = false ↔ s.I.toNat + n > 4096 := by
  rw [inRange_false_iff]
  omega

/-- MEM_RANGE as the table writes it, for an access of at least one byte. -/
theorem rangeFault_asRecorded {n : Nat} (hn : n ≠ 0) : (rangeFault s n).map asRecorded =
    if s.I.toNat + n > 4096 then some (2, BitVec.ofNat 16 (max s.I.toNat 4096)) else none := by
  rw [rangeFault, apply_ite (Option.map asRecorded)]
  exact if_congr (inRange_eq_false_iff_gt hn) rfl rfl

/-- A draw without rows accesses no byte (R132). -/
theorem rangeFault_zero (s : State) : rangeFault s 0 = none := rfl

theorem faultOfTable_eq (s : State) : faultOfTable s = (stepFault s).map asRecorded := by
  unfold faultOfTable stepFault
  split
  · rfl
  cases s.instrAtPc with
  | none => rfl
  | some i =>
    rw [Option.bind_some]
    cases i
    case drw x y n =>
      change (if n.toNat = 0 then none else _) = (rangeFault s n.toNat).map asRecorded
      split
      next hnone => rw [hnone, rangeFault_zero, Option.map_none]
      next hrows => exact (rangeFault_asRecorded hrows).symm
    case ldB => exact (rangeFault_asRecorded (by decide)).symm
    case dump x | load x => exact (rangeFault_asRecorded x.val.succ_ne_zero).symm
    case ret | call | skp | sknp =>
      rw [instrFault, apply_ite (Option.map asRecorded)]
      rfl
    all_goals rfl

/-! ## What the cycle answers (R140, R143) -/

/-- Every instruction completes: in its fault, or with the status registers as they were. -/
theorem exec_answers (i : Instr) (s : State) : Answers s (exec i s) (instrFault s i) := by
  cases i
  case ret =>
    refine answers_ite exec_ret_of_nil fun hsome => ?_
    have hnewest : s.stack = s.stack.dropLast ++ [s.stack.getLast hsome] := (List.dropLast_append_getLast hsome).symm
    exact ⟨_, exec_ret_of_append hnewest, rfl, rfl, rfl⟩
  case call nnn =>
    exact answers_ite (fun hfull => exec_call_of_ge hfull nnn)
      fun hroom => ⟨_, exec_call_of_lt (Nat.not_le.mp hroom) nnn, rfl, rfl, rfl⟩
  case drw =>
    exact answers_ite (fun hout => drwWith_of_not_inRange hout _)
      fun hin => ⟨_, drwWith_of_inRange (Bool.eq_true_of_not_eq_false hin) _, rfl, rfl, rfl⟩
  case skp | sknp =>
    refine answers_ite (fun hpast => keySkipWith_of_gt hpast _ _) fun hkey => ⟨_, if_neg hkey, ?_⟩
    simp
  case ldB x =>
    exact answers_ite (storeAtIndex_of_not_inRange (bytes := decimalDigits (s.reg x)))
      fun hin => ⟨_, storeAtIndex_of_inRange (Bool.eq_true_of_not_eq_false hin), rfl, rfl, rfl⟩
  case dump x =>
    rw [instrFault, ← length_regsUpTo (s := s) x]
    exact answers_ite storeAtIndex_of_not_inRange
      fun hin => ⟨_, storeAtIndex_of_inRange (Bool.eq_true_of_not_eq_false hin), rfl, rfl, rfl⟩
  case load =>
    exact answers_ite (fun hout => if_neg (Bool.eq_false_iff.mp hout))
      fun hin => ⟨_, if_pos (Bool.eq_true_of_not_eq_false hin), rfl, rfl, rfl⟩
  all_goals exact ⟨_, rfl, by simp⟩

/-- The cycle of the running machine answers with the fault of the `Step`. -/
theorem runInstr_answers (hrun : s.status = .running) : Answers s (runInstr s) (stepFault s) := by
  unfold stepFault
  split
  next hpast => exact runInstr_of_pc_gt hrun hpast
  next hinside =>
    have hfetch := fetch_of_le (Nat.not_lt.mp hinside)
    generalize wordOfBytes _ _ = w at hfetch
    cases hdecode : decodeWord w with
    | error e =>
      have hinstr : s.instrAtPc = none := by simp [State.instrAtPc, hfetch, hdecode, Except.toOption]
      rw [hinstr, runInstr_of_error hrun hfetch hdecode]
      exact ⟨_, rfl, rfl, rfl, rfl⟩
    | ok i =>
      have hinstr : s.instrAtPc = some i := by simp [State.instrAtPc, hfetch, hdecode, Except.toOption]
      rw [hinstr, runInstr_of_decode hrun hfetch hdecode]
      exact exec_answers i s

/-- A due `Step` meets the same `pc`, registers and memory with its event taken off the schedule. -/
theorem step_answers {u : State} (hrun : s.status = .running) (hdue : StepDue s u) :
    Answers u (step s) (stepFault s) := by
  rw [step_of_due hdue, hdue.eq]
  exact runInstr_answers (s := { s with schedule := u.schedule }) hrun

/-- The cycle completes in every state: the faulted machine stays as it is (R144), the running one answers. -/
theorem runInstr_completes (s : State) : ∃ t, runInstr s = .next t := by
  cases hstatus : s.status with
  | faulted => exact ⟨s, runInstr_of_faulted hstatus⟩
  | running => exact (runInstr_answers hstatus).completes

/-! ## What the fault registers record stays true (R141) -/

/-- With `I` in the address space the first byte outside it is the one at 4096. -/
theorem rangeInfo_eq_4096 (hI : s.I.toNat ≤ 0xFFF) : s.rangeInfo = 4096 := by
  rw [State.rangeInfo, Nat.max_eq_right (hI.trans (by decide))]
  rfl

/-- What the record says of a fault just taken in `s`. -/
def FaultHolds (s : State) (c : Fault) (info : Word) : Prop :=
  FaultRecord { s with status := .faulted, faultCause := c.code, faultInfo := info }

theorem faultHolds_of_rangeFault {n : Nat} (hs : Inv s) (h : rangeFault s n = some (c, info)) :
    FaultHolds s c info := by
  obtain ⟨-, rfl, rfl⟩ : _ ∧ Fault.memRange = c ∧ s.rangeInfo = info := by simpa [rangeFault] using h
  exact fun _ => .inr (.inl ⟨rfl, rangeInfo_eq_4096 hs.index⟩)

/-- An instruction faults on a stack that is empty or, under the bound of R22 (c), exactly full, on a key number above
15, or past the end of memory. -/
theorem faultHolds_of_instrFault {i : Instr} (hs : Inv s) (h : instrFault s i = some (c, info)) :
    FaultHolds s c info := by
  cases i
  case drw | ldB | dump | load => exact faultHolds_of_rangeFault hs h
  case ret =>
    obtain ⟨hempty, rfl, rfl⟩ : s.stack = [] ∧ Fault.stackUnderflow = c ∧ 0 = info := by simpa [instrFault] using h
    exact fun _ => .inr (.inr (.inl ⟨rfl, rfl, hempty⟩))
  case call =>
    obtain ⟨hfull, rfl, rfl⟩ : 16 ≤ s.stack.length ∧ Fault.stackOverflow = c ∧ 0 = info := by
      simpa [instrFault] using h
    exact fun _ => .inr (.inr (.inr (.inl ⟨rfl, rfl, Nat.le_antisymm hs.depth hfull⟩)))
  case skp x | sknp x =>
    obtain ⟨hpast, rfl, rfl⟩ : 15 < (s.reg x).toNat ∧ Fault.keyRange = c ∧ BitVec.ofNat 16 (s.reg x).toNat = info := by
      simpa [instrFault] using h
    have hbyte := (s.reg x).isLt
    have hvalue : (BitVec.ofNat 16 (s.reg x).toNat).toNat = (s.reg x).toNat := Nat.mod_eq_of_lt (by omega)
    exact fun _ =>
      .inr (.inr (.inr (.inr ⟨rfl, hpast.trans_eq hvalue.symm, hvalue.trans_le (Nat.le_of_lt_succ hbyte)⟩)))
  all_goals cases h

theorem faultHolds_of_stepFault (hs : Inv s) (h : stepFault s = some (c, info)) : FaultHolds s c info := by
  unfold stepFault at h
  split at h
  next hpast =>
    cases h
    exact fun _ => .inl ⟨rfl, hpast, rfl⟩
  next =>
    obtain ⟨i, -, hi⟩ := Option.bind_eq_some_iff.mp h
    exact faultHolds_of_instrFault hs hi

/-- The record says nothing of a running machine. -/
theorem faultRecord_of_running (hrun : t.status = .running) : FaultRecord t := by
  intro hfaulted
  rw [hrun] at hfaulted
  cases hfaulted

theorem runInstr_faultRecord (hs : Inv s) (hrecord : FaultRecord s) (h : runInstr s = .next t) : FaultRecord t := by
  cases hstatus : s.status with
  | faulted =>
    obtain rfl := next_inj ((runInstr_of_faulted hstatus).symm.trans h)
    exact hrecord
  | running =>
    have hanswers := runInstr_answers hstatus
    rw [h] at hanswers
    rcases hanswers.fault_or_status with ⟨c, info, hfault, rfl⟩ | hkept
    · exact faultHolds_of_stepFault hs hfault
    · exact faultRecord_of_running (hkept.trans hstatus)

/-- An accepted image leaves the machine running (R161); a rejected one leaves the fault and what it speaks of (R162). -/
theorem loadProgram_faultRecord (image : List Byte) (hrecord : FaultRecord s) :
    FaultRecord (loadProgram image s) := by
  unfold loadProgram
  split
  · exact faultRecord_of_running rfl
  · exact hrecord

theorem applyEvent_faultRecord {e : Event} (hs : Inv s) (hrecord : FaultRecord s) (h : applyEvent e s = .next t) :
    FaultRecord t := by
  cases e with
  | step => exact runInstr_faultRecord hs hrecord h
  | tick => exact next_inj h ▸ hrecord
  | reset | powerOn => exact next_inj h ▸ faultRecord_of_running rfl
  | loadProgram image => exact next_inj h ▸ loadProgram_faultRecord image hrecord

end

/-! ## The statements -/

/-- Settles O46: the record does not speak of the schedule, and each event keeps it or takes a fault whose condition
holds. -/
theorem eventsKeepTheFaultRecordTrue : Obligations.EventsKeepTheFaultRecordTrue := by
  intro s t hs hrecord h
  rcases step_cases h with ⟨_, hrun⟩ | ⟨e, rest, _, hevent⟩
  · exact runInstr_faultRecord hs hrecord hrun
  · have hs' : Inv { s with schedule := rest } := hs.of_timers_outputs_schedule ..
    exact applyEvent_faultRecord hs' hrecord hevent

/-- Settles O4: the table names the fault the `Step` answers with. -/
theorem stepFaultsExactlyAsTheTableSays : Obligations.StepFaultsExactlyAsTheTableSays := by
  intro s u hrun hdue
  have hanswers := step_answers hrun hdue
  rw [faultOfTable_eq]
  cases hfault : stepFault s with
  | some f =>
    rw [hfault] at hanswers
    exact hanswers
  | none =>
    rw [hfault, hdue.eq] at hanswers
    obtain ⟨t, ht, hstatus, hregisters⟩ := hanswers
    exact ⟨t, ht, hstatus.trans hrun, hregisters⟩

/-- Settles O5: a `Step` that does not answer with a fault leaves the machine running. -/
theorem faultEntryIsPrecise : Obligations.FaultEntryIsPrecise := by
  intro s u t hrun hdue h hfaulted
  have hanswers := step_answers hrun hdue
  rw [h] at hanswers
  rcases hanswers.fault_or_status with ⟨c, info, -, rfl⟩ | hkept
  · exact ⟨rfl, code_range c⟩
  · rw [hkept, hdue.eq, hrun] at hfaulted
    cases hfaulted

/-- Settles O13: the cycle completes in every state, and the host's other events have nothing to check. -/
theorem everyEventCompletes : Obligations.EveryEventCompletes := by
  intro s
  cases hschedule : s.schedule with
  | nil =>
    rw [step_of_empty hschedule]
    exact runInstr_completes s
  | cons e rest =>
    rw [step_of_cons hschedule]
    cases e with
    | step => exact runInstr_completes _
    | tick | reset | powerOn | loadProgram => exact ⟨_, rfl⟩

end Sys2Proof.Machine
end

section
/-! Obligations O6 and O7: the timers' tick, and what the host does to a faulted machine (60_exceptions.md R144,
R149). -/

namespace Sys2Proof.Machine

/-! ## The periods of a timer (R149) -/

/-- Natural subtraction stops at 0, as the timer does. -/
theorem toNat_countDown (b : Byte) : (countDown b).toNat = b.toNat - 1 := by
  unfold countDown
  split
  next hzero => rw [hzero]; rfl
  next hnonzero => bv_omega

theorem countDown_of_zero {b : Byte} (h : b = 0) : countDown b = 0 := if_pos h

theorem toNat_countDown_add_one {b : Byte} (h : b ≠ 0) : (countDown b).toNat + 1 = b.toNat := by
  rw [toNat_countDown]
  bv_omega

/-! ## The load of an image by its length (R161, R162) -/

section

variable {image : List Byte}

theorem loadProgram_of_le (h : image.length ≤ 3584) (s : State) : loadProgram image s =
    { powerOn s with memory := Memory.writeBytes (powerOn s).memory Config.progBase image } :=
  if_pos (decide_eq_true h)

theorem loadProgram_of_gt (h : 3584 < image.length) (s : State) :
    loadProgram image s = s.issue (.reportLoadError image.length Config.maxProg) := by
  have hlong : ¬imageFits image = true := mt of_decide_eq_true (Nat.not_le.mpr h)
  exact if_neg hlong

/-- An accepted image writes memory only, over the registers of `PowerOn`. -/
theorem initialRegisters_loadProgram (h : image.length ≤ 3584) (s : State) :
    InitialRegisters (loadProgram image s) := by
  rw [loadProgram_of_le h]
  exact initialRegisters_initRegisters s

end

/-! ## The statements -/

/-- Settles O7: a tick counts each timer down and writes nothing else. -/
theorem tickDecrementsNonzeroTimers : Obligations.TickDecrementsNonzeroTimers :=
  fun _ _ htick => ⟨_, step_of_cons htick, rfl, countDown_of_zero, toNat_countDown_add_one,
    countDown_of_zero, toNat_countDown_add_one⟩

/-- Settles O6, event by event: the cycle is idle while faulted, and the other events do not read the status. -/
theorem faultedMachineWaitsForTheHost : Obligations.FaultedMachineWaitsForTheHost := by
  intro s hfaulted
  refine ⟨fun hempty => ?_, fun rest hstep => ?_, fun rest htick => ?_, fun rest hreset => ?_, fun rest hpower => ?_,
    fun image rest hload hfits => ?_, fun image rest hload hlong => ?_⟩
  · exact (step_of_empty hempty).trans (runInstr_of_faulted hfaulted)
  · exact (step_of_cons hstep).trans (runInstr_of_faulted (s := { s with schedule := rest }) hfaulted)
  · exact ⟨_, step_of_cons htick, rfl, toNat_countDown s.dt, toNat_countDown s.st⟩
  · exact ⟨_, step_of_cons hreset, initialRegisters_initRegisters { s with schedule := rest }⟩
  · exact ⟨_, step_of_cons hpower, initialRegisters_initRegisters { s with schedule := rest }⟩
  · exact ⟨_, step_of_cons hload, initialRegisters_loadProgram hfits _⟩
  · refine ⟨_, step_of_cons hload, ?_⟩
    rw [loadProgram_of_gt hlong]
    exact ⟨hfaulted, rfl, rfl⟩

end Sys2Proof.Machine
end

section
/-! Obligations O8 to O11: the host operations (70_reset_and_hazards.md R160 to R163). What memory after `PowerOn` holds
and what an image written over it leaves, then one statement per operation. -/

namespace Sys2Proof.Machine

/-! ## Memory after `PowerOn` (R160) -/

/-- The font is 80 bytes long, so from 80 on an unlisted address reads 0. -/
theorem unlisted_of_ge {a : Nat} (h : 80 ≤ a) : unlisted a = 0 :=
  List.getD_eq_default fontset 0 h

theorem unlisted_eq_ite (a : Nat) : unlisted a = if a < 80 then fontset.getD a 0 else 0 := by
  split
  next => rfl
  next hpast => exact unlisted_of_ge (Nat.not_lt.mp hpast)

theorem loadProgram_nil (s : State) : loadProgram [] s = powerOn s := rfl

/-! ## Memory after an accepted image (R161) -/

/-- A block store, read inside: the byte at the place `k` of the block (R34, R45). -/
theorem read_writeBytes_inside {m : Memory} (hm : m.wf = true) {a k : Nat} {bs : List Byte}
    (hroom : a + bs.length ≤ Config.memSize) (hk : k < bs.length) : (m.writeBytes a bs).read (a + k) = bs[k] := by
  rw [read_writeBytes hm a bs hroom, if_pos (Nat.le_add_right a k), Nat.add_sub_cancel_left,
    List.getElem?_eq_getElem hk, Option.getD_some]

section

variable {image : List Byte}

/-- An accepted image ends at the end of the address space or before it. -/
theorem image_fits_above_progBase (h : image.length ≤ 3584) : Config.progBase + image.length ≤ Config.memSize :=
  Nat.add_le_add_left h 512

theorem loadProgram_memory (h : image.length ≤ 3584) (s : State) :
    (loadProgram image s).memory = Memory.writeBytes [] 512 image := by
  rw [loadProgram_of_le h]
  rfl

theorem read_loadProgram_image (h : image.length ≤ 3584) (s : State) {k : Nat} (hk : k < image.length) :
    (loadProgram image s).memory.read (512 + k) = image[k] := by
  rw [loadProgram_memory h]
  exact read_writeBytes_inside wf_nil (image_fits_above_progBase h) hk

/-- Below and above an accepted image memory is as after `PowerOn`. -/
theorem read_loadProgram_of_outside (h : image.length ≤ 3584) (s : State) {a : Nat}
    (ha : a < 512 ∨ 512 + image.length ≤ a) : (loadProgram image s).memory.read a = unlisted a := by
  rw [loadProgram_memory h]
  exact read_writeBytes_of_outside wf_nil (image_fits_above_progBase h) ha

theorem loadProgram_outputs (h : image.length ≤ 3584) (s : State) : (loadProgram image s).outputs = s.outputs := by
  rw [loadProgram_of_le h]
  rfl

theorem loadProgram_schedule (h : image.length ≤ 3584) (s : State) : (loadProgram image s).schedule = s.schedule := by
  rw [loadProgram_of_le h]
  rfl

end

/-! ## The statements -/

/-- Settles O9: the image lies in 512..4095, clear of the font, over the memory and registers of `PowerOn`. -/
theorem loadProgramPlacesTheImage : Obligations.LoadProgramPlacesTheImage := by
  intro s image rest hload hfits
  refine ⟨_, step_of_cons hload, initialRegisters_loadProgram hfits _, fun k hk => ?image, fun a hfont => ?font,
    fun a hpast hout => ?zero, loadProgram_outputs hfits _, loadProgram_schedule hfits _⟩
  case image => exact read_loadProgram_image hfits _ hk
  case font => exact read_loadProgram_of_outside hfits _ (.inl (Nat.lt_trans hfont (by decide)))
  case zero => exact (read_loadProgram_of_outside hfits _ hout).trans (unlisted_of_ge hpast)

/-- Settles O8: `PowerOn` lists no byte of memory, and the empty image writes none over it. -/
theorem powerOnGivesTheInitialState : Obligations.PowerOnGivesTheInitialState := by
  intro s rest hpower
  have hempty : step { s with schedule := .loadProgram [] :: rest } = .next (powerOn { s with schedule := rest }) := by
    rw [step_of_cons (e := .loadProgram []) rfl]
    exact congrArg Host.Outcome.next (loadProgram_nil { s with schedule := rest })
  exact ⟨_, step_of_cons hpower, initialRegisters_initRegisters { s with schedule := rest }, unlisted_eq_ite, rfl, rfl,
    hempty⟩

/-- Settles O10: an image above the limit is answered with the report alone. -/
theorem oversizedLoadChangesNothing : Obligations.OversizedLoadChangesNothing :=
  fun s _ rest hload hlong => (step_of_cons hload).trans
    (congrArg Host.Outcome.next (loadProgram_of_gt hlong { s with schedule := rest }))

/-- Settles O11: the initial registers and one `fb.clear()`; no other field is written. -/
theorem resetKeepsMemoryAndClearsTheScreen : Obligations.ResetKeepsMemoryAndClearsTheScreen :=
  fun s rest hreset =>
    ⟨_, step_of_cons hreset, initialRegisters_initRegisters { s with schedule := rest }, rfl, rfl, rfl, rfl⟩

end Sys2Proof.Machine
end

section
/-! Obligation O53: the end of a run (70_reset_and_hazards.md R168). The cycle at a JP to itself jumps to where `pc`
stands, and being finished does not depend on what a `Tick` or the schedule changes. -/

namespace Sys2Proof.Machine

section

variable {s : State}

/-- The instruction at `pc` is the decoded word of the fetch. -/
theorem exists_fetch_of_instrAtPc {i : Instr} (h : s.instrAtPc = some i) :
    ∃ w, s.fetch = some w ∧ decodeWord w = .ok i := by
  unfold State.instrAtPc at h
  split at h
  next => cases h
  next w hfetch =>
    cases hdecode : decodeWord w with
    | error e =>
      rw [hdecode] at h
      cases h
    | ok j =>
      rw [hdecode] at h
      cases h
      exact ⟨w, hfetch, hdecode⟩

/-- The cycle of the running machine is the meaning of the instruction at `pc` (R26). -/
theorem runInstr_of_instrAtPc {i : Instr} (hrun : s.status = .running) (h : s.instrAtPc = some i) :
    runInstr s = exec i s := by
  obtain ⟨w, hfetch, hdecode⟩ := exists_fetch_of_instrAtPc h
  exact runInstr_of_decode hrun hfetch hdecode

/-- A jump to where `pc` already stands changes nothing (R71). -/
theorem exec_jp_self {nnn : Addr12} (h : s.pc = addrWord nnn) : exec (.jp nnn) s = .next s := by
  change Host.Outcome.next (s.jump (addrWord nnn)) = _
  rw [← h]
  rfl

theorem runInstr_of_finished (h : Finished s) : runInstr s = .next s := by
  obtain ⟨hrun, nnn, hpc, hinstr⟩ := h
  exact (runInstr_of_instrAtPc hrun hinstr).trans (exec_jp_self hpc)

/-- Being finished is a matter of the status, `pc` and memory. -/
theorem Finished.of_timers_schedule (h : Finished s) (dt st : Byte) (schedule : List Event) :
    Finished { s with dt := dt, st := st, schedule := schedule } := h

end

/-- Settles O53: a due `Step` meets the same JP with its event taken off, and a `Tick` writes the timers alone. -/
theorem jumpToSelfIsAFixedPoint : Obligations.JumpToSelfIsAFixedPoint := by
  intro s hfinished
  refine ⟨fun u hdue => ?due, fun rest htick => ?tick⟩
  case due =>
    have hu : Finished u := hdue.eq ▸ hfinished.of_timers_schedule s.dt s.st u.schedule
    exact ⟨(step_of_due hdue).trans (runInstr_of_finished hu), hu⟩
  case tick => exact ⟨_, step_of_cons htick, hfinished.of_timers_schedule (countDown s.dt) (countDown s.st) rest⟩

end Sys2Proof.Machine
end
